-- ==== Sys2Proof/Word.lean ====
section
/-! DEFINITION. The word, the byte and the register number of the LC-3 core (00_scope.md R6, R8, R9). -/

namespace Sys2Proof

/-- The 16-bit unsigned quantity of registers, memory words, addresses and instructions; sums wrap modulo 2^16 (R9). -/
abbrev Word := BitVec 16

/-- One character of the console streams (R40, R43). -/
abbrev Byte := BitVec 8

/-- The number of one of the eight general registers R0 to R7 (R20). -/
abbrev Reg := Fin 8

end Sys2Proof
end

