-- ==== Sys2Proof/Config.lean ====
section
/-! DEFINITION. What the spec leaves open: constants with no body, so that no proof can lean on a value of theirs.
The numbers that the spec fixes (opcodes, vectors, device addresses, flag masks) are in Machine/Numbers.lean. -/

namespace Sys2Proof

/-- The answer of `InAvailable()` at the n-th poll that finds unread input and no scripted answer: a draw of the
environment (R41, D16, U6). Free value; assumption 4. -/
opaque Config.inputAvailable : Nat → Bool

/-- `IN_PROMPT`, the text TRAP IN writes before it reads (R7, R168, D11: OPEN). Free value; assumption 6. -/
opaque Config.inPrompt : List Byte

/-- `HALT_NOTICE`, the text TRAP HALT writes (R7, R172, D12: OPEN). Free value; assumption 6. -/
opaque Config.haltNotice : List Byte

/-- Why a run ended without success (R212). -/
inductive FailureCause where
  /-- the program image was refused before the first step (R226) -/
  | loadError
  /-- the core stopped with `status = FAULTED` (R190, R191) -/
  | fatalError
  /-- the host aborted the run (R196) -/
  | hostAbort
deriving DecidableEq, Repr

/-- One less than the process exit code of a failed run: the code is some value other than 0 (R212, D28, U10).
Free value; assumption 14. -/
opaque Config.failureCodePred : FailureCause → Nat

end Sys2Proof
end

