-- ==== Sys2Proof/Syntax.lean ====
section
/-! DEFINITION. The instructions: one constructor per row of spec/opcode_table.json, holding only the fields its
format uses (30_encoding.md R81, R84, R95, R97). Bits that the decoder ignores (R86) are no part of an instruction. -/

namespace Sys2Proof

/-- The sixteen values of the opcode field (R84); `res` is the spec's name for the value the source never names. -/
inductive Opcode where
  | br | add | ld | st | jsr | and | ldr | str | rti | not | ldi | sti | jmp | res | lea | trap
deriving DecidableEq, Repr

/-- An instruction. Offsets and immediates stay the bits of their field; sign extension is part of the meaning (R85). -/
inductive Instr where
  /-- BR, R150: the mask `nzp` is instr[11:9], `n` its bit 2, `z` its bit 1, `p` its bit 0 (R12) -/
  | br (nzp : BitVec 3) (pcOffset9 : BitVec 9)
  /-- ADD, register form, R120 -/
  | addReg (dr sr1 sr2 : Reg)
  /-- ADD, immediate form, R120 -/
  | addImm (dr sr1 : Reg) (imm5 : BitVec 5)
  /-- LD, R130 -/
  | ld (dr : Reg) (pcOffset9 : BitVec 9)
  /-- ST, R132: `sr` is the source of the store -/
  | st (sr : Reg) (pcOffset9 : BitVec 9)
  /-- JSR, PC-relative form, R153 -/
  | jsr (pcOffset11 : BitVec 11)
  /-- JSR, register form (JSRR), R153 and R154 -/
  | jsrr (baseR : Reg)
  /-- AND, register form, R121 -/
  | andReg (dr sr1 sr2 : Reg)
  /-- AND, immediate form, R121 -/
  | andImm (dr sr1 : Reg) (imm5 : BitVec 5)
  /-- LDR, R134 -/
  | ldr (dr baseR : Reg) (offset6 : BitVec 6)
  /-- STR, R136: `sr` is the source of the store -/
  | str (sr baseR : Reg) (offset6 : BitVec 6)
  /-- RTI, R180: a fatal decode error -/
  | rti
  /-- NOT, R122 -/
  | not (dr sr : Reg)
  /-- LDI, R138 -/
  | ldi (dr : Reg) (pcOffset9 : BitVec 9)
  /-- STI, R140: `sr` is the source of the store -/
  | sti (sr : Reg) (pcOffset9 : BitVec 9)
  /-- JMP, R156; RET is `jmp 7` (R157) -/
  | jmp (baseR : Reg)
  /-- RES, opcode 1101, R181: a fatal decode error -/
  | res
  /-- LEA, R142 -/
  | lea (dr : Reg) (pcOffset9 : BitVec 9)
  /-- TRAP x20, R162 -/
  | trapGetc
  /-- TRAP x21, R164 -/
  | trapOut
  /-- TRAP x22, R166 -/
  | trapPuts
  /-- TRAP x23, R168 -/
  | trapIn
  /-- TRAP x24, R170 -/
  | trapPutsp
  /-- TRAP x25, R172 -/
  | trapHalt
  /-- TRAP with any other vector, R174 -/
  | trapUndefined (trapvect8 : BitVec 8)
deriving DecidableEq, Repr

/-- The opcode field of an instruction (R84, R97). -/
def Instr.opcode : Instr → Opcode
  | .br _ _ => .br
  | .addReg _ _ _ => .add
  | .addImm _ _ _ => .add
  | .ld _ _ => .ld
  | .st _ _ => .st
  | .jsr _ => .jsr
  | .jsrr _ => .jsr
  | .andReg _ _ _ => .and
  | .andImm _ _ _ => .and
  | .ldr _ _ _ => .ldr
  | .str _ _ _ => .str
  | .rti => .rti
  | .not _ _ => .not
  | .ldi _ _ => .ldi
  | .sti _ _ => .sti
  | .jmp _ => .jmp
  | .res => .res
  | .lea _ _ => .lea
  | .trapGetc => .trap
  | .trapOut => .trap
  | .trapPuts => .trap
  | .trapIn => .trap
  | .trapPutsp => .trap
  | .trapHalt => .trap
  | .trapUndefined _ => .trap

end Sys2Proof
end

