-- ==== Sys2Proof/Machine/Numbers.lean ====
section
/-! DEFINITION. The numbers of 00_scope.md R7 in one place: opcodes (R84), trap vectors (R95), keyboard addresses
(R61), flag masks (R27). The spec fixes them and says that its source prints none of them; assumption 2. -/

namespace Sys2Proof

/-- `instr[15:12]` of each opcode (R84). -/
def Opcode.code : Opcode → BitVec 4
  | .br => 0b0000#4
  | .add => 0b0001#4
  | .ld => 0b0010#4
  | .st => 0b0011#4
  | .jsr => 0b0100#4
  | .and => 0b0101#4
  | .ldr => 0b0110#4
  | .str => 0b0111#4
  | .rti => 0b1000#4
  | .not => 0b1001#4
  | .ldi => 0b1010#4
  | .sti => 0b1011#4
  | .jmp => 0b1100#4
  | .res => 0b1101#4
  | .lea => 0b1110#4
  | .trap => 0b1111#4

/-- The opcodes in the numeric order of R84: the opcode with code c is the entry at index c. -/
def opcodesInOrder : Vector Opcode 16 :=
  #v[.br, .add, .ld, .st, .jsr, .and, .ldr, .str, .rti, .not, .ldi, .sti, .jmp, .res, .lea, .trap]

/-- The opcode a 4-bit field selects; every value selects one (R96). -/
def opcodeOf (c : BitVec 4) : Opcode := opcodesInOrder[c.toNat]

namespace Machine

/-- `TRAP_GETC` (R95). -/
def vectGetc : BitVec 8 := 0x20#8
/-- `TRAP_OUT` (R95). -/
def vectOut : BitVec 8 := 0x21#8
/-- `TRAP_PUTS` (R95). -/
def vectPuts : BitVec 8 := 0x22#8
/-- `TRAP_IN` (R95). -/
def vectIn : BitVec 8 := 0x23#8
/-- `TRAP_PUTSP` (R95). -/
def vectPutsp : BitVec 8 := 0x24#8
/-- `TRAP_HALT` (R95). -/
def vectHalt : BitVec 8 := 0x25#8

/-- The six vectors that name a service; each of the other 250 is undefined (R95, R174). -/
def definedVectors : List (BitVec 8) := [vectGetc, vectOut, vectPuts, vectIn, vectPutsp, vectHalt]

/-- `KBSR_ADDR`, the keyboard status word (R61, R202). -/
def kbsrAddr : Word := 0xFE00#16
/-- `KBDR_ADDR`, the keyboard data word (R61, R202). -/
def kbdrAddr : Word := 0xFE02#16

/-- `FL_POS` (R27). -/
def flPos : BitVec 3 := 0b001#3
/-- `FL_ZERO` (R27). -/
def flZero : BitVec 3 := 0b010#3
/-- `FL_NEG` (R27). -/
def flNeg : BitVec 3 := 0b100#3

end Machine
end Sys2Proof
end

