-- ==== Sys2Proof/Machine/State.lean ====
section
/-! DEFINITION. The state of the core and of the console it talks to (10_state.md), the reasons for which the
machine gives no next state, and the state after reset (R45, R220). -/

namespace Sys2Proof.Machine

/-- The machine status (R31). -/
inductive Status where
  /-- the loop takes steps -/
  | alive
  /-- TRAP HALT has run (R172); terminal -/
  | dead
  /-- a fatal error has been raised (R190, R191); terminal -/
  | faulted
deriving DecidableEq, Repr

/-- The fault record of a fatal error (R190, R191). -/
inductive FatalError where
  /-- R190: RTI or RES was executed; the 4-bit opcode is recorded -/
  | decodeError (op : BitVec 4)
  /-- R191: TRAP with none of the six vectors was executed; the 8-bit vector is recorded -/
  | undefinedTrapVector (tv : BitVec 8)
deriving DecidableEq, Repr

/-- The services that read one byte (R42). -/
inductive ReadService where
  /-- TRAP GETC, R162: no echo -/
  | getc
  /-- TRAP IN, R168: the byte is echoed -/
  | inEcho
deriving DecidableEq, Repr

/-- The services that write a string (R166, R170). -/
inductive StringService where
  /-- TRAP PUTS: one character per word -/
  | puts
  /-- TRAP PUTSP: two characters per word -/
  | putsp
deriving DecidableEq, Repr

/-- A step that has begun and not completed (R42, R113, R166); assumption 3. -/
inductive Hold where
  /-- the service waits for an input byte (R42) -/
  | read (r : ReadService)
  /-- the service writes a string that has no zero word, for ever; `a` is the next address (R166, U13) -/
  | string (k : StringService) (a : Word)
deriving DecidableEq, Repr

/-- One memory word at an address. The addressable unit is the Word and there is no byte addressing (R34, R57), so
a cell holds a whole Word and not a `Host.Cell`'s byte; assumption 1. -/
abbrev Cell := Nat × Word

/-- The memory array M (R34): the cells that differ from what an unlisted address reads as, addresses rising. -/
abbrev Memory := List Cell

/-- The core (R20 to R36) and its console (R37, R40 to R43). -/
structure State where
  /-- R0 to R7 (R20) -/
  x : Vector Word 8
  /-- the program counter (R24) -/
  pc : Word
  /-- the condition flags NEG, ZERO, POS in bits 2, 1, 0 (R27) -/
  cond : BitVec 3
  /-- ALIVE, DEAD or FAULTED (R31) -/
  status : Status
  /-- what `raise` recorded (R190, R191) -/
  fault : Option FatalError
  /-- M, the keyboard words among it (R33, R34) -/
  mem : Memory
  /-- `Env.input`: the bytes handed over and not yet consumed, the next one first (R37, R40) -/
  input : List Byte
  /-- `Env.output`: the bytes written so far, the oldest first (R43) -/
  output : List Byte
  /-- the step in progress, if one waits or never ends (R42, R113, R166); assumption 3 -/
  hold : Option Hold
  /-- the environment's answers to the coming draws of `InAvailable()` (R41); when none is left the free value
  `Config.inputAvailable` answers; the model's own field, assumption 4 -/
  availability : List Bool
  /-- how many draws the free value has answered; the model's own field, assumption 4 -/
  draws : Nat
deriving DecidableEq, Repr

/-- Why a run stops with a fault. No step raises one: a fatal error of the core is a next state with
`status = FAULTED` (R197), and nothing else in a step can go wrong (R192, R199). -/
inductive Fault where
  /-- Raised by the host's abort, never by a step (R196, R210: InterruptedExecution). Safe: nothing is claimed of
  the state an abort leaves (U9). -/
  | interruptedExecution
  /-- Raised by a launch, never by a step: the image has no program word or is truncated (R226: LoadError). Safe:
  the core takes no step. -/
  | loadError
deriving DecidableEq, Repr

/-- Why the machine gives no meaning. -/
inductive Refusal where
  /-- Reserved for an instruction without a meaning; no arm of `exec` raises it. Safe. -/
  | notModelled (mnemonic : String)
  /-- Raised by a launch, never by a step: the image does not fit between its origin and 0xFFFF, and the spec gives
  such a launch no meaning (R227, U11). Safe. -/
  | imageDoesNotFit
deriving DecidableEq, Repr

/-- The machine right after reset: step 1 of R220 with the status of R31, before the loader sets `pc` (R29). Every
register, flag and memory word is zero (R23, R29, R36, R45), nothing is on the console (R45). Assumptions 5, 10. -/
def State.reset : State where
  x := Vector.replicate 8 0x0000#16
  pc := 0x0000#16
  cond := 0b000#3
  status := .alive
  fault := none
  mem := []
  input := []
  output := []
  hold := none
  availability := []
  draws := 0

end Sys2Proof.Machine
end

