-- ==== Sys2Proof/Machine/Ops.lean ====
section
/-! DEFINITION. The primitives of 00_scope.md R11: registers, memory with its keyboard poll, console, fatal errors. -/

namespace Sys2Proof.Machine

/-! ### Registers (R20, R24) -/

/-- `x[r]`. -/
def State.reg (s : State) (r : Reg) : Word := s.x[r]

/-- `x[r] <- v`: none of the eight is hard-wired or read-only (R20). -/
def State.setReg (r : Reg) (v : Word) (s : State) : State := { s with x := s.x.set r v }

/-- `pc <- v`. -/
def State.setPc (v : Word) (s : State) : State := { s with pc := v }

/-! ### The memory array (R34, R36) -/

/-- What an address that no cell lists reads as: the reset contents (R36). -/
def unlistedWord : Word := 0x0000#16

/-- The canonical form of a memory: addresses strictly rising and inside the address space, and no cell equal to
what an unlisted address reads as. -/
abbrev Memory.wf (m : Memory) : Prop :=
  (m.map Prod.fst).Pairwise (· < ·) ∧ ∀ c ∈ m, c.1 < 65536 ∧ c.2 ≠ unlistedWord

/-- The word at a key. -/
def Memory.readKey (k : Nat) : Memory → Word
  | [] => unlistedWord
  | (k', v) :: rest => if k' = k then v else Memory.readKey k rest

/-- The word at a key replaced; writing what an unlisted address reads as removes the cell. -/
def Memory.writeKey (k : Nat) (v : Word) : Memory → Memory
  | [] => if v = unlistedWord then [] else [(k, v)]
  | (k', v') :: rest =>
    if k < k' then (if v = unlistedWord then (k', v') :: rest else (k, v) :: (k', v') :: rest)
    else if k = k' then (if v = unlistedWord then rest else (k, v) :: rest)
    else (k', v') :: Memory.writeKey k v rest

/-- `M[a]`, the raw memory cell, with no side effect (R11). -/
def State.word (s : State) (a : Word) : Word := s.mem.readKey a.toNat

/-- `M[a] <- v` (R11). -/
def State.setWord (a v : Word) (s : State) : State := { s with mem := s.mem.writeKey a.toNat v }

/-! ### The console (R37, R40 to R43) -/

/-- `zext_16` of a byte (R10). -/
def zext16 (b : Byte) : Word := b.setWidth 16

/-- A draw of the environment for `InAvailable()` while unread input exists (R41): the next scripted answer, or the
free value. -/
def drawAvailable (s : State) : Bool × State :=
  match s.availability with
  | answer :: rest => (answer, { s with availability := rest })
  | [] => (Config.inputAvailable s.draws, { s with draws := s.draws + 1 })

/-- `InAvailable()` and, where it answers true, `InTake()` (R41): the byte taken, if any. It is false when no
unread byte exists, and nothing is drawn then. -/
def takeIfAvailable (s : State) : Option Byte × State :=
  match s.input with
  | [] => (none, s)
  | c :: rest =>
    let (answer, s') := drawAvailable s
    if answer then (some c, { s' with input := rest }) else (none, s')

/-- `Out(b)` for each byte in order (R43). -/
def out (bs : List Byte) (s : State) : State := { s with output := s.output ++ bs }

/-! ### The architectural access to memory (R50 to R56) -/

/-- `KeyboardPoll()` (R51): on success bit 15 of the status word is set, its other bits are kept (D14), and the
byte is zero-extended into the data word (D15); else the status word is cleared. -/
def keyboardPoll (s : State) : State :=
  match takeIfAvailable s with
  | (some c, s') => (s'.setWord kbsrAddr (s'.word kbsrAddr ||| 0x8000#16)).setWord kbdrAddr (zext16 c)
  | (none, s') => s'.setWord kbsrAddr 0x0000#16

/-- `MemRead(a, 16)` (R50): the word read, and the state after the poll that a read of `KBSR_ADDR` makes first. -/
def memRead (a : Word) (s : State) : Word × State :=
  let s' := if a = kbsrAddr then keyboardPoll s else s
  (s'.word a, s')

/-- `MemWrite(a, 16, v)` (R52, R53): a plain store at every address. -/
def memWrite (a v : Word) (s : State) : State := s.setWord a v

/-! ### The blocking read (R42) -/

/-- What a service does with the byte it has read: IN echoes it first (R168), both store it in R0 (R162). -/
def finishRead (r : ReadService) (c : Byte) (s : State) : State :=
  match r with
  | .getc => s.setReg 0 (zext16 c)
  | .inEcho => (out [c] s).setReg 0 (zext16 c)

/-- `InTakeBlocking()` and the rest of the service: with no unread byte the step is held, and only the arrival of a
byte lifts the hold (R42, D18). -/
def blockingRead (r : ReadService) (s : State) : State :=
  match s.input with
  | [] => { s with hold := some (.read r) }
  | c :: rest => finishRead r c { s with input := rest, hold := none }

/-! ### The string services' reads (R68, R166, R170) -/

/-- The words from address a up to and excluding the first zero word, read raw (R68); the address wraps modulo 2^16.
`none` when none of the first `fuel` words is zero. -/
def stringWords (s : State) : Nat → Word → Option (List Word)
  | 0, _ => none
  | fuel + 1, a =>
    if s.word a = 0x0000#16 then some []
    else (stringWords s fuel (a + 1#16)).map (fun ws => s.word a :: ws)

/-- The whole string at an address; after 65536 words every word of memory has been seen, so `none` says that no
word is zero (R166). -/
def stringAt (a : Word) (s : State) : Option (List Word) := stringWords s 65536 a

/-! ### Fatal errors (R190, R191, R197) -/

/-- `raise e` (R11, R197): the status and the record change and nothing else does; `pc` is already incremented and
stays. No handler exists, and nothing returns from a fatal error (R198), so there is no return beside it. -/
def raise (e : FatalError) (s : State) : State := { s with status := .faulted, fault := some e }

end Sys2Proof.Machine
end

