-- ==== Sys2Proof/Machine/Flags.lean ====
section
/-! DEFINITION. The condition flags: `SetCC` (40_fetch_execute_loop.md R114) and the test of BR (R150). -/

namespace Sys2Proof.Machine

/-- The flags of a word (R114): ZERO, else NEG by bit 15, else POS. -/
def flagsOf (v : Word) : BitVec 3 :=
  if v = 0x0000#16 then flZero else if v.getLsbD 15 then flNeg else flPos

/-- `cond <- c` (R11). -/
def State.setCond (c : BitVec 3) (s : State) : State := { s with cond := c }

/-- `SetCC(v)` (R114): the whole of `cond` is replaced. -/
def setCC (v : Word) (s : State) : State := s.setCond (flagsOf v)

/-- `x[DR] <- v` and then `SetCC(v)`: how the seven flag-setting instructions end (R30, R114). -/
def writeResult (dr : Reg) (v : Word) (s : State) : State := setCC v (s.setReg dr v)

/-- The condition of BR (R150): some flag of the mask is set. -/
def branchTaken (nzp : BitVec 3) (s : State) : Bool := (nzp &&& s.cond) != 0b000#3

end Sys2Proof.Machine
end

