-- ==== Sys2Proof/Machine/Operands.lean ====
section
/-! DEFINITION. Operand forms: sign extension (R10, R85), the second operand of ADD and AND (R120), and the ways an
address is formed (R144). `pc` is the instruction's address plus one (R25). -/

namespace Sys2Proof.Machine

/-- `sext_16` of an n-bit field (R10). -/
def sext16 {n : Nat} (f : BitVec n) : Word := f.signExtend 16

/-- Bits 7:0 of a word. -/
def lowByte (w : Word) : Byte := w.extractLsb' 0 8

/-- Bits 15:8 of a word. -/
def highByte (w : Word) : Byte := w.extractLsb' 8 8

/-- The PC-relative address or target `pc + sext_16(offset)` (R144, R150, R153). -/
def pcRelative {n : Nat} (off : BitVec n) (s : State) : Word := s.pc + sext16 off

/-- The base + offset address `x[BaseR] + sext_16(offset6)` (R144). -/
def basePlusOffset (base : Reg) (off : BitVec 6) (s : State) : Word := s.reg base + sext16 off

/-- The indirect address (R144): the pointer word is read with `MemRead`, which may poll the keyboard. -/
def indirect (off : BitVec 9) (s : State) : Word × State := memRead (pcRelative off s) s

/-- The bytes a string service writes for one word: PUTS bits 7:0 (R166); PUTSP bits 7:0 and then, if not zero,
bits 15:8 (R170). -/
def wordBytes (k : StringService) (w : Word) : List Byte :=
  match k with
  | .puts => [lowByte w]
  | .putsp => if highByte w = 0x00#8 then [lowByte w] else [lowByte w, highByte w]

end Sys2Proof.Machine
end

