-- ==== Sys2Proof/Machine/Control.lean ====
section
/-! DEFINITION. BR, JSR, JSRR, JMP (43_control_transfer.md). None writes the flags (R158). -/

namespace Sys2Proof.Machine

/-- BR (R150). -/
def execBr (nzp : BitVec 3) (off : BitVec 9) (s : State) : Host.Outcome State Fault Refusal :=
  .next (if branchTaken nzp s then s.setPc (pcRelative off s) else s)

/-- `x[7] <- pc`: the return address of both forms of JSR (R153). -/
def link (s : State) : State := s.setReg 7 s.pc

/-- JSR, PC-relative form (R153). -/
def execJsr (off : BitVec 11) (s : State) : Host.Outcome State Fault Refusal :=
  let s' := link s
  .next (s'.setPc (pcRelative off s'))

/-- JSR, register form (R153): the base register is read after R7 was written, so that `JSRR R7` falls through
(R154). -/
def execJsrr (base : Reg) (s : State) : Host.Outcome State Fault Refusal :=
  let s' := link s
  .next (s'.setPc (s'.reg base))

/-- JMP (R156); RET is `JMP R7` (R157). -/
def execJmp (base : Reg) (s : State) : Host.Outcome State Fault Refusal :=
  .next (s.setPc (s.reg base))

end Sys2Proof.Machine
end

