-- ==== Sys2Proof/Machine/LoadStore.lean ====
section
/-! DEFINITION. LD, ST, LDR, STR, LDI, STI, LEA (42_load_store.md). Loads and LEA set the flags, stores do not (R145). -/

namespace Sys2Proof.Machine

/-- A load from address a into DR: `MemRead`, the register, the flags (R130, R134, R138). -/
def loadFrom (dr : Reg) (a : Word) (s : State) : State :=
  let (v, s') := memRead a s
  writeResult dr v s'

/-- LD (R130). -/
def execLd (dr : Reg) (off : BitVec 9) (s : State) : Host.Outcome State Fault Refusal :=
  .next (loadFrom dr (pcRelative off s) s)

/-- ST (R132). -/
def execSt (sr : Reg) (off : BitVec 9) (s : State) : Host.Outcome State Fault Refusal :=
  .next (memWrite (pcRelative off s) (s.reg sr) s)

/-- LDR (R134). -/
def execLdr (dr base : Reg) (off : BitVec 6) (s : State) : Host.Outcome State Fault Refusal :=
  .next (loadFrom dr (basePlusOffset base off s) s)

/-- STR (R136). -/
def execStr (sr base : Reg) (off : BitVec 6) (s : State) : Host.Outcome State Fault Refusal :=
  .next (memWrite (basePlusOffset base off s) (s.reg sr) s)

/-- LDI (R138): the second read comes after the first and its poll. -/
def execLdi (dr : Reg) (off : BitVec 9) (s : State) : Host.Outcome State Fault Refusal :=
  let (ea, s') := indirect off s
  .next (loadFrom dr ea s')

/-- STI (R140): the read of the pointer comes first. -/
def execSti (sr : Reg) (off : BitVec 9) (s : State) : Host.Outcome State Fault Refusal :=
  let (ea, s') := indirect off s
  .next (memWrite ea (s'.reg sr) s')

/-- LEA (R142): the address itself is the result; memory is not accessed. -/
def execLea (dr : Reg) (off : BitVec 9) (s : State) : Host.Outcome State Fault Refusal :=
  .next (writeResult dr (pcRelative off s) s)

end Sys2Proof.Machine
end

