-- ==== Sys2Proof/Machine/Reserved.lean ====
section
/-! DEFINITION. RTI and RES (45_reserved_opcodes.md): each is a fatal decode error that records its opcode. -/

namespace Sys2Proof.Machine

/-- RTI (R180): `raise DecodeError(0b1000)`. -/
def execRti (s : State) : Host.Outcome State Fault Refusal :=
  .next (raise (.decodeError Opcode.rti.code) s)

/-- RES (R181): `raise DecodeError(0b1101)`. -/
def execRes (s : State) : Host.Outcome State Fault Refusal :=
  .next (raise (.decodeError Opcode.res.code) s)

end Sys2Proof.Machine
end

