-- ==== Sys2Proof/Machine/Trap.lean ====
section
/-! DEFINITION. TRAP and its six services (44_trap_services.md), performed inside the core (R175). TRAP itself changes
neither R7 nor `pc` nor the flags (R161). -/

namespace Sys2Proof.Machine

/-- GETC (R162): one byte without echo; the step waits where none is there. -/
def execTrapGetc (s : State) : Host.Outcome State Fault Refusal := .next (blockingRead .getc s)

/-- OUT (R164): the low byte of R0. -/
def execTrapOut (s : State) : Host.Outcome State Fault Refusal := .next (out [lowByte (s.reg 0)] s)

/-- A string service: the string at R0, written inside one step (R113); where no word of memory is zero the step
never ends, and the hold writes the endless string a word at a time (R166, U13). -/
def putString (k : StringService) (s : State) : State :=
  match stringAt (s.reg 0) s with
  | some ws => out (ws.flatMap (wordBytes k)) s
  | none => { s with hold := some (.string k (s.reg 0)) }

/-- PUTS (R166): one character per word. -/
def execTrapPuts (s : State) : Host.Outcome State Fault Refusal := .next (putString .puts s)

/-- IN (R168): the prompt, then one byte with echo; the prompt is written before the step waits. -/
def execTrapIn (s : State) : Host.Outcome State Fault Refusal :=
  .next (blockingRead .inEcho (out Config.inPrompt s))

/-- PUTSP (R170): two characters per word. -/
def execTrapPutsp (s : State) : Host.Outcome State Fault Refusal := .next (putString .putsp s)

/-- HALT (R172): the notice, then `status <- DEAD`. -/
def execTrapHalt (s : State) : Host.Outcome State Fault Refusal :=
  .next { out Config.haltNotice s with status := .dead }

/-- TRAP with an undefined vector (R174): a fatal error that records the vector. -/
def execTrapUndefined (v : BitVec 8) (s : State) : Host.Outcome State Fault Refusal :=
  .next (raise (.undefinedTrapVector v) s)

/-- How a held step goes on (R42, R166). -/
def resume (h : Hold) (s : State) : State :=
  match h with
  | .read r => blockingRead r s
  | .string k a =>
    if s.word a = 0x0000#16 then { s with hold := none }
    else out (wordBytes k (s.word a)) { s with hold := some (.string k (a + 1#16)) }

end Sys2Proof.Machine
end

