-- ==== Sys2Proof/WellFormed.lean ====
section
/-! DEFINITION. Which terms of `Instr` stand for an instruction word. The types of the fields bound registers,
immediates and offsets already (R85); the one check left is that `trapUndefined` does not carry the vector of a
service, which has a row of its own (R97: the last row applies only when none of the six matches). -/

namespace Sys2Proof

/-- An instruction some word decodes to. -/
def Instr.wellFormed : Instr → Bool
  | .trapUndefined v => !Machine.definedVectors.contains v
  | .br _ _ => true
  | .addReg _ _ _ => true
  | .addImm _ _ _ => true
  | .ld _ _ => true
  | .st _ _ => true
  | .jsr _ => true
  | .jsrr _ => true
  | .andReg _ _ _ => true
  | .andImm _ _ _ => true
  | .ldr _ _ _ => true
  | .str _ _ _ => true
  | .rti => true
  | .not _ _ => true
  | .ldi _ _ => true
  | .sti _ _ => true
  | .jmp _ => true
  | .res => true
  | .lea _ _ => true
  | .trapGetc => true
  | .trapOut => true
  | .trapPuts => true
  | .trapIn => true
  | .trapPutsp => true
  | .trapHalt => true

end Sys2Proof
end

