-- ==== Sys2Proof/Decode.lean ====
section
/-! DEFINITION. Decoding (30_encoding.md R80 to R86, R96) and encoding (R87, R88). Every one of the 65536 words
decodes, so there is nothing to reject: "Decoding has no error of its own" (R96). -/

namespace Sys2Proof

/-! ### Fields (R12, R82, R83) -/

/-- `instr[11:9]` as a register: DR of a load or an operation, SR of a store. -/
def fieldDR (w : Word) : Reg := (w.extractLsb' 9 3).toFin
/-- `instr[8:6]` as a register: SR1, SR or BaseR. -/
def fieldSR1 (w : Word) : Reg := (w.extractLsb' 6 3).toFin
/-- `instr[2:0]` as a register: SR2. -/
def fieldSR2 (w : Word) : Reg := (w.extractLsb' 0 3).toFin
/-- `instr[11:9]` as the mask of BR: n, z, p from the most significant bit down. -/
def fieldNzp (w : Word) : BitVec 3 := w.extractLsb' 9 3
/-- `instr[4:0]`. -/
def fieldImm5 (w : Word) : BitVec 5 := w.extractLsb' 0 5
/-- `instr[5:0]`. -/
def fieldOffset6 (w : Word) : BitVec 6 := w.extractLsb' 0 6
/-- `instr[8:0]`. -/
def fieldPCoffset9 (w : Word) : BitVec 9 := w.extractLsb' 0 9
/-- `instr[10:0]`. -/
def fieldPCoffset11 (w : Word) : BitVec 11 := w.extractLsb' 0 11
/-- `instr[7:0]`. -/
def fieldTrapvect8 (w : Word) : BitVec 8 := w.extractLsb' 0 8
/-- `instr[15:12]`. -/
def fieldOpcode (w : Word) : BitVec 4 := w.extractLsb' 12 4
/-- `instr[5]`: the immediate form of ADD and AND. -/
def flagImm (w : Word) : Bool := w.getLsbD 5
/-- `instr[11]`: the PC-relative form of JSR. -/
def flagRel (w : Word) : Bool := w.getLsbD 11

/-! ### Decoding -/

/-- The TRAP instruction a vector selects (R95, R160). -/
def decodeTrap (v : BitVec 8) : Instr :=
  if v = Machine.vectGetc then .trapGetc
  else if v = Machine.vectOut then .trapOut
  else if v = Machine.vectPuts then .trapPuts
  else if v = Machine.vectIn then .trapIn
  else if v = Machine.vectPutsp then .trapPutsp
  else if v = Machine.vectHalt then .trapHalt
  else .trapUndefined v

/-- The instruction a word stands for (R84, R92, R96): the opcode, then the second selector of its row. -/
def decode (w : Word) : Instr :=
  match opcodeOf (fieldOpcode w) with
  | .br => .br (fieldNzp w) (fieldPCoffset9 w)
  | .add =>
    if flagImm w then .addImm (fieldDR w) (fieldSR1 w) (fieldImm5 w)
    else .addReg (fieldDR w) (fieldSR1 w) (fieldSR2 w)
  | .ld => .ld (fieldDR w) (fieldPCoffset9 w)
  | .st => .st (fieldDR w) (fieldPCoffset9 w)
  | .jsr => if flagRel w then .jsr (fieldPCoffset11 w) else .jsrr (fieldSR1 w)
  | .and =>
    if flagImm w then .andImm (fieldDR w) (fieldSR1 w) (fieldImm5 w)
    else .andReg (fieldDR w) (fieldSR1 w) (fieldSR2 w)
  | .ldr => .ldr (fieldDR w) (fieldSR1 w) (fieldOffset6 w)
  | .str => .str (fieldDR w) (fieldSR1 w) (fieldOffset6 w)
  | .rti => .rti
  | .not => .not (fieldDR w) (fieldSR1 w)
  | .ldi => .ldi (fieldDR w) (fieldPCoffset9 w)
  | .sti => .sti (fieldDR w) (fieldPCoffset9 w)
  | .jmp => .jmp (fieldSR1 w)
  | .res => .res
  | .lea => .lea (fieldDR w) (fieldPCoffset9 w)
  | .trap => decodeTrap (fieldTrapvect8 w)

/-- The decoder on a word numbered as spec/opcode_table.json numbers it; a core instruction is one 16-bit word, so
more than 16 bits are no instruction (R80). -/
def decodeTableWord (nbits w : Nat) : Option Instr :=
  if nbits ≤ 16 then some (decode (BitVec.ofNat 16 (w % 2 ^ nbits))) else none

/-! ### Encoding -/

/-- The three bits of a register number. -/
def regBits (r : Reg) : BitVec 3 := BitVec.ofFin r

/-- A word with the opcode in instr[15:12] and the rest of its format below (R81). -/
def withOpcode (op : Opcode) (rest : BitVec 12) : Word := op.code ++ rest

/-- Format ALU-R (R81); the ignored bits 4:3 are 0 (R87). -/
def encodeAluReg (op : Opcode) (dr sr1 sr2 : Reg) : Word :=
  withOpcode op (regBits dr ++ (regBits sr1 ++ (0b000#3 ++ regBits sr2)))
/-- Format ALU-I (R81). -/
def encodeAluImm (op : Opcode) (dr sr1 : Reg) (imm5 : BitVec 5) : Word :=
  withOpcode op (regBits dr ++ (regBits sr1 ++ (0b1#1 ++ imm5)))
/-- Format PC9 (R81). -/
def encodePC9 (op : Opcode) (r : Reg) (off : BitVec 9) : Word := withOpcode op (regBits r ++ off)
/-- Format BASE6 (R81). -/
def encodeBase6 (op : Opcode) (r base : Reg) (off : BitVec 6) : Word :=
  withOpcode op (regBits r ++ (regBits base ++ off))
/-- Formats JMP and JSRR (R81); every ignored bit is 0 (R87), as is the flag that marks JSRR. -/
def encodeBase (op : Opcode) (base : Reg) : Word := withOpcode op (0b000#3 ++ (regBits base ++ 0b000000#6))
/-- Format TRAP (R81); the ignored bits 11:8 are 0 (R87). -/
def encodeTrap (v : BitVec 8) : Word := withOpcode .trap (0b0000#4 ++ v)

/-- The canonical word of an instruction (R87, R88, R97). RTI has none: it is "never emitted by the codec" and an
encoder has no function that produces it (R90). RES has the word of its table row; assumption 16. -/
def encode : Instr → Option Word
  | .br nzp off => some (withOpcode .br (nzp ++ off))
  | .addReg dr sr1 sr2 => some (encodeAluReg .add dr sr1 sr2)
  | .addImm dr sr1 imm5 => some (encodeAluImm .add dr sr1 imm5)
  | .ld dr off => some (encodePC9 .ld dr off)
  | .st sr off => some (encodePC9 .st sr off)
  | .jsr off => some (withOpcode .jsr (0b1#1 ++ off))
  | .jsrr base => some (encodeBase .jsr base)
  | .andReg dr sr1 sr2 => some (encodeAluReg .and dr sr1 sr2)
  | .andImm dr sr1 imm5 => some (encodeAluImm .and dr sr1 imm5)
  | .ldr dr base off => some (encodeBase6 .ldr dr base off)
  | .str sr base off => some (encodeBase6 .str sr base off)
  | .rti => none
  | .not dr sr => some (withOpcode .not (regBits dr ++ (regBits sr ++ 0b111111#6)))
  | .ldi dr off => some (encodePC9 .ldi dr off)
  | .sti sr off => some (encodePC9 .sti sr off)
  | .jmp base => some (encodeBase .jmp base)
  | .res => some (withOpcode .res 0b000000000000#12)
  | .lea dr off => some (encodePC9 .lea dr off)
  | .trapGetc => some (encodeTrap Machine.vectGetc)
  | .trapOut => some (encodeTrap Machine.vectOut)
  | .trapPuts => some (encodeTrap Machine.vectPuts)
  | .trapIn => some (encodeTrap Machine.vectIn)
  | .trapPutsp => some (encodeTrap Machine.vectPutsp)
  | .trapHalt => some (encodeTrap Machine.vectHalt)
  | .trapUndefined v => some (encodeTrap v)

/-- A signed value masked to an n-bit field: v mod 2^n (R88). -/
def signedField (n : Nat) (v : Int) : BitVec n := BitVec.ofInt n v

/-! ### The opcode table (R97) -/

/-- A row of spec/opcode_table.json: word w belongs to it when w &&& mask = bits. -/
structure OpcodeRow where
  mask : Word
  bits : Word
deriving DecidableEq, Repr

/-- Does the word belong to the row (R97)? -/
def OpcodeRow.matchesWord (row : OpcodeRow) (w : Word) : Bool := w &&& row.mask == row.bits

/-- The row of an instruction's constructor: the table's mask and match columns. -/
def Instr.row : Instr → OpcodeRow
  | .br _ _ => ⟨0xF000#16, 0x0000#16⟩
  | .addReg _ _ _ => ⟨0xF020#16, 0x1000#16⟩
  | .addImm _ _ _ => ⟨0xF020#16, 0x1020#16⟩
  | .ld _ _ => ⟨0xF000#16, 0x2000#16⟩
  | .st _ _ => ⟨0xF000#16, 0x3000#16⟩
  | .jsr _ => ⟨0xF800#16, 0x4800#16⟩
  | .jsrr _ => ⟨0xF800#16, 0x4000#16⟩
  | .andReg _ _ _ => ⟨0xF020#16, 0x5000#16⟩
  | .andImm _ _ _ => ⟨0xF020#16, 0x5020#16⟩
  | .ldr _ _ _ => ⟨0xF000#16, 0x6000#16⟩
  | .str _ _ _ => ⟨0xF000#16, 0x7000#16⟩
  | .rti => ⟨0xF000#16, 0x8000#16⟩
  | .not _ _ => ⟨0xF000#16, 0x9000#16⟩
  | .ldi _ _ => ⟨0xF000#16, 0xA000#16⟩
  | .sti _ _ => ⟨0xF000#16, 0xB000#16⟩
  | .jmp _ => ⟨0xF000#16, 0xC000#16⟩
  | .res => ⟨0xF000#16, 0xD000#16⟩
  | .lea _ _ => ⟨0xF000#16, 0xE000#16⟩
  | .trapGetc => ⟨0xF0FF#16, 0xF020#16⟩
  | .trapOut => ⟨0xF0FF#16, 0xF021#16⟩
  | .trapPuts => ⟨0xF0FF#16, 0xF022#16⟩
  | .trapIn => ⟨0xF0FF#16, 0xF023#16⟩
  | .trapPutsp => ⟨0xF0FF#16, 0xF024#16⟩
  | .trapHalt => ⟨0xF0FF#16, 0xF025#16⟩
  | .trapUndefined _ => ⟨0xF000#16, 0xF000#16⟩

/-- The pattern of the canonical words (R87): the table's canonical_mask and canonical_match where it has
them, `0xF000 | tv` for the undefined vectors, and mask and match for a format that ignores no bit (R97). -/
def Instr.canonicalRow : Instr → OpcodeRow
  | .addReg _ _ _ => ⟨0xF038#16, 0x1000#16⟩
  | .jsrr _ => ⟨0xFE3F#16, 0x4000#16⟩
  | .andReg _ _ _ => ⟨0xF038#16, 0x5000#16⟩
  | .rti => ⟨0xFFFF#16, 0x8000#16⟩
  | .not _ _ => ⟨0xF03F#16, 0x903F#16⟩
  | .jmp _ => ⟨0xFE3F#16, 0xC000#16⟩
  | .res => ⟨0xFFFF#16, 0xD000#16⟩
  | .trapGetc => ⟨0xFFFF#16, 0xF020#16⟩
  | .trapOut => ⟨0xFFFF#16, 0xF021#16⟩
  | .trapPuts => ⟨0xFFFF#16, 0xF022#16⟩
  | .trapIn => ⟨0xFFFF#16, 0xF023#16⟩
  | .trapPutsp => ⟨0xFFFF#16, 0xF024#16⟩
  | .trapHalt => ⟨0xFFFF#16, 0xF025#16⟩
  | .trapUndefined _ => ⟨0xFF00#16, 0xF000#16⟩
  | .br nzp off => (Instr.br nzp off).row
  | .addImm dr sr1 imm5 => (Instr.addImm dr sr1 imm5).row
  | .ld dr off => (Instr.ld dr off).row
  | .st sr off => (Instr.st sr off).row
  | .jsr off => (Instr.jsr off).row
  | .andImm dr sr1 imm5 => (Instr.andImm dr sr1 imm5).row
  | .ldr dr base off => (Instr.ldr dr base off).row
  | .str sr base off => (Instr.str sr base off).row
  | .ldi dr off => (Instr.ldi dr off).row
  | .sti sr off => (Instr.sti sr off).row
  | .lea dr off => (Instr.lea dr off).row

/-- A word whose ignored bits have their canonical values (R87). -/
def canonicalWord (w : Word) : Bool := (decode w).canonicalRow.matchesWord w

end Sys2Proof
end

