-- ==== Sys2Proof/Machine/Fetch.lean ====
section
/-! DEFINITION. What a step does around `exec` (40_fetch_execute_loop.md R110, R111). -/

namespace Sys2Proof.Machine

/-- The fetch of R111: `instr <- MemRead(pc, 16)`, which polls the keyboard where `pc = KBSR_ADDR` (R56), then
`pc <- pc + 1` modulo 2^16. -/
def fetch (s : State) : Word × State :=
  let (w, s') := memRead s.pc s
  (w, s'.setPc (s'.pc + 1#16))

/-- The state whose next fetch reads `w`: the cell at `pc` holds it (R66). -/
def placeAtPc (w : Word) (s : State) : State := s.setWord s.pc w

end Sys2Proof.Machine
end

