-- ==== Sys2Proof/Machine/Step.lean ====
section
/-! DEFINITION. The step of the core (40_fetch_execute_loop.md R110, R111, R113). -/

namespace Sys2Proof.Machine

/-- One step. ALIVE: a step that is held goes on (R42, R113), else the word at `pc` is fetched, decoded and executed
(R111). DEAD and FAULTED: no state changes (R110); assumption 7. -/
def step (s : State) : Host.Outcome State Fault Refusal :=
  match s.status, s.hold with
  | .alive, none => exec (decode (fetch s).1) (fetch s).2
  | .alive, some h => .next (resume h s)
  | .dead, _ => .next s
  | .faulted, _ => .next s

/-- `s` with the instruction of opcode-table bits `w` where the next fetch reads it. `step` then runs it where `s` is
ALIVE, no step is held and `pc` is not `KBSR_ADDR`, as after reset; assumption 15. -/
def State.withFetchWord (s : State) (nbits w : Nat) : State :=
  placeAtPc (BitVec.ofNat 16 (w % 2 ^ nbits)) s

end Sys2Proof.Machine
end

