-- ==== Sys2Proof/Machine/HostMoves.lean ====
section
/-! DEFINITION. What the host does to the core (70_reset_and_hazards.md R224 to R230): the launch of an image, the
delivery of an input byte, the abort; and the outcome of a run as the host sees it (60_exceptions.md R212). -/

namespace Sys2Proof.Machine

/-- A program image as the loader hands it over (R225): the origin and the words. -/
structure Image where
  origin : Word
  words : List Word
deriving DecidableEq, Repr

/-- The image fits between its origin and 0xFFFF (R227). -/
abbrev Image.fits (img : Image) : Prop := img.origin.toNat + img.words.length ≤ 65536

/-- The big-endian words of a file (R224, R57); `none` when a byte is left over, a truncated file; assumption 12. -/
def bigEndianWords : List Byte → Option (List Word)
  | [] => some []
  | [_] => none
  | hi :: lo :: rest => (bigEndianWords rest).map (fun ws => (hi ++ lo) :: ws)

/-- The image in a file (R224); `none` is the LoadError of R226: no origin, no program word, or truncated. -/
def imageOfFile (bytes : List Byte) : Option Image :=
  match bigEndianWords bytes with
  | some (origin :: w :: ws) => some ⟨origin, w :: ws⟩
  | _ => none

/-- Steps 2 of R220: `M[a + i] <- word i`, the array cells written directly (R225). -/
def loadWords (a : Word) : List Word → State → State
  | [], s => s
  | w :: ws, s => loadWords (a + 1#16) ws (s.setWord a w)

/-- The state in which the loop takes its first step (R45): the reset state with the image loaded and
`pc <- ORIGIN` (R220, R225). -/
def launchState (img : Image) : State := (loadWords img.origin img.words State.reset).setPc img.origin

/-- The launch of a program file: a LoadError (R226), a launch without a meaning (R227), or the first state. -/
def launch (bytes : List Byte) : Host.Outcome State Fault Refusal :=
  match imageOfFile bytes with
  | none => .fault .loadError
  | some img => if img.fits then .next (launchState img) else .refused .imageDoesNotFit

/-- The host delivers an input byte after those it has delivered already, at any time during the run (R40, R230). The
spec says nothing of a byte handed to a DEAD or FAULTED core: here it joins the unread input, which no step of that
core reads; the model's choice, assumption 17. -/
def deliver (c : Byte) (s : State) : State := { s with input := s.input ++ [c] }

/-- The host aborts the run (R196): an unsuccessful end while the core is ALIVE, held steps included; a stopped core
is left as it is. -/
def hostAbort (s : State) : Host.Outcome State Fault Refusal :=
  match s.status with
  | .alive => .fault .interruptedExecution
  | .dead => .next s
  | .faulted => .next s

/-- The process exit code of a stopped core (R212): 0 for DEAD, some value other than 0 for FAULTED; none while
ALIVE, for a run has then no outcome yet. -/
def exitCode (s : State) : Option Nat :=
  match s.status with
  | .alive => none
  | .dead => some 0
  | .faulted => some (Config.failureCodePred .fatalError + 1)

/-- The process exit code of a run that a fault ended (R212). -/
def faultExitCode : Fault → Nat
  | .interruptedExecution => Config.failureCodePred .hostAbort + 1
  | .loadError => Config.failureCodePred .loadError + 1

end Sys2Proof.Machine
end

