-- ==== Sys2Proof/Safety.lean ====
section
/-! DEFINITION. What claims about runs are stated with: the legal states, the states a run can reach, and the parts of
the state an instruction leaves alone. -/

namespace Sys2Proof.Machine

/-- The legal values of `cond` (R28). -/
def legalConds : List (BitVec 3) := [0b000#3, flPos, flZero, flNeg]

/-- What every reachable state satisfies: memory in its canonical form, `cond` legal (R28), a fault recorded exactly
when FAULTED (R190, R191, R197), steps held only while ALIVE (R42), and a string service held only where no word of
memory is zero (R166). -/
structure State.Inv (s : State) : Prop where
  mem_wf : s.mem.wf
  cond_legal : s.cond ∈ legalConds
  fault_iff : s.fault.isSome ↔ s.status = .faulted
  hold_alive : s.hold ≠ none → s.status = .alive
  endless : ∀ k a, s.hold = some (.string k a) → ∀ b, s.word b ≠ 0x0000#16

/-- The states of the runs of any image under any input: launched, stepped, or handed an input byte (R230), a stopped
core among them by the model's choice, assumption 17. -/
inductive Reachable : State → Prop where
  | launched (img : Image) (hwords : img.words ≠ []) (hfits : img.fits) : Reachable (launchState img)
  | stepped (s t : State) (hs : Reachable s) (ht : step s = .next t) : Reachable t
  | delivered (s : State) (c : Byte) (hs : Reachable s) : Reachable (deliver c s)

/-- A final state for the purpose of a claim: only HALT leads there (R115). -/
abbrev State.Final (s : State) : Prop := s.status = .dead

/-- A safe run has raised no fatal error (R197: a FAULTED state refutes a claim about a program's end). -/
abbrev State.Safe (s : State) : Prop := s.status ≠ .faulted

/-! ### Frames -/

/-- Every general register but those listed holds the same word. -/
def SameRegsExcept (ds : List Reg) (s t : State) : Prop := ∀ r : Reg, r ∉ ds → t.reg r = s.reg r

/-- Every memory word is the same. -/
def SameMemory (s t : State) : Prop := ∀ a : Word, t.word a = s.word a

/-- Every memory word but the one at `ea` is the same. -/
def SameMemoryExcept (ea : Word) (s t : State) : Prop := ∀ a : Word, a ≠ ea → t.word a = s.word a

/-- Nothing was read from the console: the unread input and the draws are the same (R37, R41). -/
def SameInput (s t : State) : Prop :=
  t.input = s.input ∧ t.availability = s.availability ∧ t.draws = s.draws

/-- Neither side of the console changed. -/
def SameConsole (s t : State) : Prop := SameInput s t ∧ t.output = s.output

/-- The status, the fault record and the step in progress are the same (R31, R190, R113). -/
def SameControl (s t : State) : Prop := t.status = s.status ∧ t.fault = s.fault ∧ t.hold = s.hold

/-! ### The keyboard (R50, R51) -/

/-- The environment's next answer to `InAvailable()` (R41). -/
def nextAnswer (s : State) : Bool := s.availability.headD (Config.inputAvailable s.draws)

/-- From `s` to `t` one answer was drawn. -/
def OneDraw (s t : State) : Prop :=
  t.availability = s.availability.tail ∧ t.draws = s.draws + (if s.availability = [] then 1 else 0)

/-- What `KeyboardPoll()` does to memory and input (R51). With no unread byte, or with a draw that answers no, the
status word is cleared; else its high bit is set and the byte goes to the data word. -/
def PollEffect (s t : State) : Prop :=
  match s.input with
  | [] => SameInput s t ∧ t.word kbsrAddr = 0x0000#16 ∧ SameMemoryExcept kbsrAddr s t
  | c :: rest =>
    OneDraw s t ∧
    if nextAnswer s then
      t.input = rest ∧ t.word kbsrAddr = s.word kbsrAddr ||| 0x8000#16 ∧ t.word kbdrAddr = c.setWidth 16 ∧
        ∀ a, a ≠ kbsrAddr → a ≠ kbdrAddr → t.word a = s.word a
    else t.input = s.input ∧ t.word kbsrAddr = 0x0000#16 ∧ SameMemoryExcept kbsrAddr s t

/-- What a `MemRead` at `a` does to memory and input (R50): a poll at `KBSR_ADDR`, nothing elsewhere. The word it
returns is then `t.word a`. -/
def ReadEffect (a : Word) (s t : State) : Prop :=
  if a = kbsrAddr then PollEffect s t else SameMemory s t ∧ SameInput s t

/-! ### What the rules list per instruction -/

/-- The destination of the seven flag-setting instructions (R30, R114). -/
def flagDest : Instr → Option Reg
  | .addReg dr _ _ => some dr
  | .addImm dr _ _ => some dr
  | .andReg dr _ _ => some dr
  | .andImm dr _ _ => some dr
  | .not dr _ => some dr
  | .ld dr _ => some dr
  | .ldi dr _ => some dr
  | .ldr dr _ _ => some dr
  | .lea dr _ => some dr
  | .br _ _ => none
  | .st _ _ => none
  | .jsr _ => none
  | .jsrr _ => none
  | .str _ _ _ => none
  | .rti => none
  | .sti _ _ => none
  | .jmp _ => none
  | .res => none
  | .trapGetc => none
  | .trapOut => none
  | .trapPuts => none
  | .trapIn => none
  | .trapPutsp => none
  | .trapHalt => none
  | .trapUndefined _ => none

/-- The general registers an instruction writes (R21). -/
def writtenRegs : Instr → List Reg
  | .jsr _ => [7]
  | .jsrr _ => [7]
  | .trapGetc => [0]
  | .trapIn => [0]
  | i => (flagDest i).toList

/-- The general registers an instruction reads (R21). -/
def readRegs : Instr → List Reg
  | .addReg _ sr1 sr2 => [sr1, sr2]
  | .andReg _ sr1 sr2 => [sr1, sr2]
  | .addImm _ sr1 _ => [sr1]
  | .andImm _ sr1 _ => [sr1]
  | .not _ sr => [sr]
  | .ldr _ base _ => [base]
  | .st sr _ => [sr]
  | .sti sr _ => [sr]
  | .str sr base _ => [sr, base]
  | .jmp base => [base]
  | .jsrr base => [base]
  | .trapOut => [0]
  | .trapPuts => [0]
  | .trapPutsp => [0]
  | .ld _ _ => []
  | .ldi _ _ => []
  | .lea _ _ => []
  | .br _ _ => []
  | .jsr _ => []
  | .rti => []
  | .res => []
  | .trapGetc => []
  | .trapIn => []
  | .trapHalt => []
  | .trapUndefined _ => []

/-- The instruction bits that no field of the format covers (R86). -/
def ignoredBits : Instr → Word
  | .addReg _ _ _ => 0x0018#16
  | .andReg _ _ _ => 0x0018#16
  | .not _ _ => 0x003F#16
  | .jsrr _ => 0x063F#16
  | .jmp _ => 0x0E3F#16
  | .rti => 0x0FFF#16
  | .res => 0x0FFF#16
  | .trapGetc => 0x0F00#16
  | .trapOut => 0x0F00#16
  | .trapPuts => 0x0F00#16
  | .trapIn => 0x0F00#16
  | .trapPutsp => 0x0F00#16
  | .trapHalt => 0x0F00#16
  | .trapUndefined _ => 0x0F00#16
  | .br _ _ => 0x0000#16
  | .addImm _ _ _ => 0x0000#16
  | .ld _ _ => 0x0000#16
  | .st _ _ => 0x0000#16
  | .jsr _ => 0x0000#16
  | .andImm _ _ _ => 0x0000#16
  | .ldr _ _ _ => 0x0000#16
  | .str _ _ _ => 0x0000#16
  | .ldi _ _ => 0x0000#16
  | .sti _ _ => 0x0000#16
  | .lea _ _ => 0x0000#16

/-- The program counter after the instruction, from `pc` as incremented (R26, R154 for `JSRR R7`). -/
def nextPc (i : Instr) (s : State) : Word :=
  match i with
  | .br nzp off => if nzp &&& s.cond = 0b000#3 then s.pc else s.pc + off.signExtend 16
  | .jmp base => s.reg base
  | .jsr off => s.pc + off.signExtend 16
  | .jsrr base => if base = 7 then s.pc else s.reg base
  | _ => s.pc

end Sys2Proof.Machine
end

