-- ==== Sys2Proof/Certificates/Slice0/Obligations.lean ====
section
/-! DEFINITION. The statements for the provers, in the order of OBLIGATIONS.json. Each docstring names the rules of
spec/ it formalises. `exec i s` is `Execute(instr)` of R112, so `s.pc` is the instruction's address plus one. -/

open Sys2Proof Sys2Proof.Machine

/-! ### Encoding -/

/-- 30_encoding.md sections 2 to 4 (R87, R89, R90): every instruction but RTI has an encoding, and decoding it gives
the instruction back; a word is its instruction's encoding exactly when its ignored bits are canonical and it is not
RTI's; signed values survive being masked to their field. That RES has an encoding, the word of its table row, is the
model's choice, assumption 16. -/
def Obligations.DecodeEncodeRoundTrip : Prop :=
  (∀ i : Instr, encode i = none ↔ i = .rti) ∧
  (∀ (i : Instr) (w : Word), i.wellFormed = true → encode i = some w → decode w = i) ∧
  (∀ w : Word, encode (decode w) = some w ↔ canonicalWord w = true ∧ decode w ≠ .rti) ∧
  (∀ v : Int, -16 ≤ v → v ≤ 15 → (signedField 5 v).toInt = v) ∧
  (∀ v : Int, -32 ≤ v → v ≤ 31 → (signedField 6 v).toInt = v) ∧
  (∀ v : Int, -256 ≤ v → v ≤ 255 → (signedField 9 v).toInt = v) ∧
  (∀ v : Int, -1024 ≤ v → v ≤ 1023 → (signedField 11 v).toInt = v)

/-- 30_encoding.md section 3: every word decodes to a well-formed instruction whose row it belongs to, and to no
other row, save that the last row overlaps the service rows. -/
def Obligations.EveryWordDecodesByItsTableRow : Prop :=
  ∀ w : Word, (decode w).wellFormed = true ∧ (decode w).row.matchesWord w = true ∧
    ∀ i : Instr, i.row.matchesWord w = true →
      i.row = (decode w).row ∨ ((∃ v, i = .trapUndefined v) ∧ (decode w).opcode = .trap)

/-- R86: changing ignored bits of a word changes nothing in what it decodes to. -/
def Obligations.IgnoredBitsDoNotMatter : Prop :=
  ∀ w m : Word, m &&& ignoredBits (decode w) = m → decode (w ^^^ m) = decode w

/-- 30_encoding.md section 6: the example words decode to the instructions they stand for. -/
def Obligations.ExampleWordsDecode : Prop :=
  decode 0x1677#16 = .addImm 3 1 0b10111#5 ∧ decode 0x1001#16 = .addReg 0 0 1 ∧
  decode 0x4E0C#16 = .jsr 0x60C#11 ∧ decode 0x903F#16 = .not 0 0 ∧ decode 0x03FD#16 = .br 0b001#3 0x1FD#9 ∧
  decode 0xA40F#16 = .ldi 2 0x00F#9 ∧ decode 0x707F#16 = .str 0 1 0x3F#6 ∧ decode 0xC1C0#16 = .jmp 7 ∧
  decode 0xF025#16 = .trapHalt ∧ decodeTableWord 16 0xF026 = some (.trapUndefined 0x26#8)

/-- R10: sign extension copies bit n-1 of an n-bit field upwards, zero extension clears bits 15:8. -/
def Obligations.ExtensionOfFields : Prop :=
  (∀ n : Nat, n ∈ [5, 6, 9, 11] → ∀ (f : BitVec n) (i : Nat), i < 16 →
    (sext16 f).getLsbD i = if i < n then f.getLsbD i else f.getLsbD (n - 1)) ∧
  (∀ (b : Byte) (i : Nat), (zext16 b).getLsbD i = (decide (i < 8) && b.getLsbD i)) ∧
  sext16 0b11111#5 = 0xFFFF#16 ∧ sext16 0b01111#5 = 0x000F#16

/-! ### Launch and reset -/

/-- R23, R36: registers and memory at process start and when the loop takes its first step. -/
def Obligations.LaunchLoadsTheImage : Prop :=
  (∀ r : Reg, State.reset.reg r = 0x0000#16) ∧ (∀ a : Word, State.reset.word a = 0x0000#16) ∧
  ∀ img : Image, img.words ≠ [] → img.fits →
    (∀ r : Reg, (launchState img).reg r = 0x0000#16) ∧
    (∀ (i : Nat) (h : i < img.words.length),
      (launchState img).word (img.origin + BitVec.ofNat 16 i) = img.words[i]) ∧
    (∀ a : Word, (∀ i < img.words.length, a ≠ img.origin + BitVec.ofNat 16 i) →
      (launchState img).word a = 0x0000#16)

/-- 10_state.md sections 2, 3, 4 and 9: `pc` at process start and when the loop takes its first step (R29); and the
flags, the status and the output then (R45). That no fault is recorded and no step held then is the model's choice,
assumption 5, and that the status is ALIVE at process start already, assumption 10. -/
def Obligations.LaunchStartsAtTheOrigin : Prop :=
  State.reset.pc = 0x0000#16 ∧ State.reset.status = .alive ∧
  ∀ img : Image, (launchState img).pc = img.origin ∧ (launchState img).cond = 0b000#3 ∧
    (launchState img).status = .alive ∧ (launchState img).fault = none ∧ (launchState img).hold = none ∧
    (launchState img).output = []

/-- R224, R227 and 70_reset_and_hazards.md section 2 (R226): a file of a big-endian origin and words launches its image if it fits; a file without an origin
or a program word is a LoadError, and an image that does not fit has no meaning. -/
def Obligations.LaunchOfAProgramFile : Prop :=
  (∀ bytes : List Byte, bytes.length < 4 → launch bytes = .fault .loadError) ∧
  ∀ (origin w : Word) (ws : List Word),
    let file := (origin :: w :: ws).flatMap fun v => [v.extractLsb' 8 8, v.extractLsb' 0 8]
    launch file = if origin.toNat + (ws.length + 1) ≤ 65536 then .next (launchState ⟨origin, w :: ws⟩)
      else .refused .imageDoesNotFit

/-- The invariant holds after reset and after every launch. -/
def Obligations.ResetAndLaunchMeetInvariant : Prop :=
  State.reset.Inv ∧ ∀ img : Image, (launchState img).Inv

/-! ### The step -/

/-- R111: an ALIVE core with no step in progress fetches the word at `pc` with `MemRead`, increments `pc`, and
executes the instruction the word decodes to. -/
def Obligations.StepRunsTheDecodedInstruction : Prop :=
  ∀ s : State, s.mem.wf → s.status = .alive → s.hold = none →
    ∃ m : State, ReadEffect s.pc s m ∧ (∀ r, m.reg r = s.reg r) ∧ m.pc = s.pc + 1#16 ∧ m.cond = s.cond ∧
      m.output = s.output ∧ SameControl s m ∧ step s = exec (decode (m.word s.pc)) m

/-- 40_fetch_execute_loop.md section 1: after reset, a word placed for the next fetch is the instruction the next step runs. -/
def Obligations.PlacedWordRunsFirst : Prop :=
  ∀ w : Nat, w < 65536 →
    step (State.reset.withFetchWord 16 w) =
      exec (decode (BitVec.ofNat 16 w)) ((State.reset.withFetchWord 16 w).setPc 0x0001#16)

/-- 60_exceptions.md section 1: whatever the state, a step ends in a next state; no instruction stops the model. That
a step that waits or never ends is cut into steps is the model's choice, assumption 3. -/
def Obligations.EveryStepHasANextState : Prop :=
  ∀ s : State, ∃ t : State, step s = .next t

/-- 40_fetch_execute_loop.md section 1 (R110): a stopped core changes no state. That a step of it answers the same
state is the model's choice, assumption 7. -/
def Obligations.StoppedCoreStaysAsItIs : Prop :=
  ∀ (s : State) (k : Nat), s.status ≠ .alive → Host.Core.run core k s = .next s

/-- Every step keeps the invariant, in every state that meets it. -/
def Obligations.StepKeepsInvariant : Prop :=
  ∀ s t : State, s.Inv → step s = .next t → t.Inv

/-- Every state of every run of every image under every input meets the invariant. -/
def Obligations.ReachableStatesMeetInvariant : Prop :=
  ∀ s : State, Reachable s → s.Inv

/-- R26: `pc` after a step. The instruction is the one fetched, from the state as the fetch leaves it. -/
def Obligations.ProgramCounterAfterAStep : Prop :=
  ∀ s t : State, s.status = .alive → s.hold = none → step s = .next t →
    t.pc = nextPc (decode (fetch s).1) (s.setPc (s.pc + 1#16))

/-- 20_memory.md section 9 (R66): the word a store puts where the next fetch reads is the word that fetch reads. -/
def Obligations.StoreIsSeenByTheNextFetch : Prop :=
  ∀ (s t : State) (sr base : Reg) (off9 : BitVec 9) (off6 : BitVec 6), s.mem.wf → t.pc ≠ kbsrAddr →
    (exec (.st sr off9) s = .next t → t.pc = pcRelative off9 s → (fetch t).1 = s.reg sr) ∧
    (exec (.str sr base off6) s = .next t → t.pc = basePlusOffset base off6 s → (fetch t).1 = s.reg sr) ∧
    (exec (.sti sr off9) s = .next t → t.pc = (indirect off9 s).1 → (fetch t).1 = s.reg sr)

/-! ### Rules over all instructions -/

/-- R114: the seven flag-setting instructions set exactly the flag of the word they wrote; no other changes `cond`. -/
def Obligations.FlagsFollowTheWrittenWord : Prop :=
  ∀ (i : Instr) (s t : State), exec i s = .next t →
    match flagDest i with
    | some dr =>
      ((t.reg dr).toInt = 0 → t.cond = 0b010#3) ∧ ((t.reg dr).toInt < 0 → t.cond = 0b100#3) ∧
        ((t.reg dr).toInt > 0 → t.cond = 0b001#3)
    | none => t.cond = s.cond

/-- 10_state.md section 3 (R30): `cond` is read by BR only: any other instruction does the same whatever `cond` holds;
the seven that set flags replace it whole, the rest leave it as it was. -/
def Obligations.OnlyBranchReadsTheFlags : Prop :=
  ∀ (i : Instr) (s t : State) (c : BitVec 3), (∀ nzp off, i ≠ .br nzp off) → exec i s = .next t →
    exec i (s.setCond c) = .next (if (flagDest i).isSome then t else t.setCond c)

/-- R28: `cond` is 000 when a run starts; a step that runs a flag-setting instruction leaves exactly one of the three
flags set, and every other step leaves `cond` as it was. -/
def Obligations.FlagsAreNoneOrOne : Prop :=
  (∀ img : Image, (launchState img).cond = 0b000#3) ∧
  ∀ s t : State, step s = .next t →
    if s.status = .alive ∧ s.hold = none ∧ (flagDest (decode (fetch s).1)).isSome = true then
      t.cond ∈ [0b001#3, 0b010#3, 0b100#3]
    else t.cond = s.cond

/-- 10_state.md section 1 (R21): an instruction writes only the registers listed for it, and reads only the registers listed for it: where it
completes, the content of any other register makes no difference to the rest of the state. -/
def Obligations.RegistersReadAndWritten : Prop :=
  ∀ (i : Instr) (s t : State), exec i s = .next t → SameRegsExcept (writtenRegs i) s t ∧
    ∀ (r : Reg) (v : Word), r ∉ readRegs i → t.hold = none →
      exec i (s.setReg r v) = .next (if r ∈ writtenRegs i then t else t.setReg r v)

/-- 20_memory.md section 6: only ST, STR and STI store; any other instruction changes at most the two keyboard
words. -/
def Obligations.OnlyStoresAndPollsWriteMemory : Prop :=
  ∀ (i : Instr) (s t : State), i.opcode ∉ [.st, .str, .sti] → exec i s = .next t →
    ∀ a : Word, a ≠ kbsrAddr → a ≠ kbdrAddr → t.word a = s.word a

/-- 10_state.md R40, R43: a step consumes unread input from the front only, and appends to the output only. -/
def Obligations.ConsoleStreamsAreInOrder : Prop :=
  ∀ s t : State, step s = .next t → (∃ n, t.input = s.input.drop n) ∧ ∃ bs, t.output = s.output ++ bs

/-- 20_memory.md section 2: nothing is printed but by a TRAP service. -/
def Obligations.OnlyTrapServicesPrint : Prop :=
  ∀ s t : State, s.status = .alive → s.hold = none → step s = .next t → t.output ≠ s.output →
    decode (fetch s).1 ∈ [.trapOut, .trapPuts, .trapIn, .trapPutsp, .trapHalt]

/-- 40_fetch_execute_loop.md section 1 and 60_exceptions.md section 1: only HALT makes an ALIVE core DEAD, and
only the reserved opcodes and an undefined vector make it FAULTED. -/
def Obligations.StatusChangesOnlyByHaltOrFatalError : Prop :=
  ∀ (i : Instr) (s t : State), s.status = .alive → exec i s = .next t →
    (t.status = .dead ↔ i = .trapHalt) ∧
    (t.status = .faulted ↔ i = .rti ∨ i = .res ∨ ∃ v, i = .trapUndefined v)

/-! ### Arithmetic and logic -/

/-- R120: ADD, both forms: the sum modulo 2^16 of `x[SR1]` and the second operand, and its flags; nothing else
changes. -/
def Obligations.AddWritesTheSum : Prop :=
  ∀ (dr sr1 sr2 : Reg) (imm5 : BitVec 5) (s : State),
    (∃ t, exec (.addReg dr sr1 sr2) s = .next t ∧
      (t.reg dr).toNat = ((s.reg sr1).toNat + (s.reg sr2).toNat) % 65536 ∧ t.cond = flagsOf (t.reg dr) ∧
      SameRegsExcept [dr] s t ∧ t.pc = s.pc ∧ SameMemory s t ∧ SameConsole s t ∧ SameControl s t) ∧
    (∃ t, exec (.addImm dr sr1 imm5) s = .next t ∧
      t.reg dr = BitVec.ofInt 16 ((s.reg sr1).toInt + imm5.toInt) ∧ t.cond = flagsOf (t.reg dr) ∧
      SameRegsExcept [dr] s t ∧ t.pc = s.pc ∧ SameMemory s t ∧ SameConsole s t ∧ SameControl s t)

/-- R121: AND, both forms: bit by bit, the immediate sign-extended; and its flags; nothing else changes. -/
def Obligations.AndWritesTheConjunction : Prop :=
  ∀ (dr sr1 sr2 : Reg) (imm5 : BitVec 5) (s : State),
    (∃ t, exec (.andReg dr sr1 sr2) s = .next t ∧
      (∀ i : Nat, (t.reg dr).getLsbD i = ((s.reg sr1).getLsbD i && (s.reg sr2).getLsbD i)) ∧
      t.cond = flagsOf (t.reg dr) ∧
      SameRegsExcept [dr] s t ∧ t.pc = s.pc ∧ SameMemory s t ∧ SameConsole s t ∧ SameControl s t) ∧
    (∃ t, exec (.andImm dr sr1 imm5) s = .next t ∧
      (∀ i < 16, (t.reg dr).getLsbD i =
        ((s.reg sr1).getLsbD i && if i < 5 then imm5.getLsbD i else imm5.getLsbD 4)) ∧
      t.cond = flagsOf (t.reg dr) ∧
      SameRegsExcept [dr] s t ∧ t.pc = s.pc ∧ SameMemory s t ∧ SameConsole s t ∧ SameControl s t)

/-- R122: NOT: all sixteen bits inverted; and its flags; nothing else changes. -/
def Obligations.NotWritesTheComplement : Prop :=
  ∀ (dr sr : Reg) (s : State), ∃ t, exec (.not dr sr) s = .next t ∧
    (∀ i < 16, (t.reg dr).getLsbD i = !(s.reg sr).getLsbD i) ∧ t.cond = flagsOf (t.reg dr) ∧
    SameRegsExcept [dr] s t ∧ t.pc = s.pc ∧ SameMemory s t ∧ SameConsole s t ∧ SameControl s t

/-! ### Loads, stores, LEA -/

/-- R130: LD: the word at `pc + sext(PCoffset9)`, read with `MemRead`; and its flags. -/
def Obligations.LdLoadsPcRelative : Prop :=
  ∀ (dr : Reg) (off : BitVec 9) (s : State), s.mem.wf →
    let ea := BitVec.ofInt 16 (s.pc.toInt + off.toInt)
    ∃ t, exec (.ld dr off) s = .next t ∧ ReadEffect ea s t ∧ t.reg dr = t.word ea ∧ t.cond = flagsOf (t.word ea) ∧
      SameRegsExcept [dr] s t ∧ t.pc = s.pc ∧ t.output = s.output ∧ SameControl s t

/-- R134: LDR: the word at `x[BaseR] + sext(offset6)`, the address taken from the base's old value. -/
def Obligations.LdrLoadsBasePlusOffset : Prop :=
  ∀ (dr base : Reg) (off : BitVec 6) (s : State), s.mem.wf →
    let ea := BitVec.ofInt 16 ((s.reg base).toInt + off.toInt)
    ∃ t, exec (.ldr dr base off) s = .next t ∧ ReadEffect ea s t ∧ t.reg dr = t.word ea ∧
      t.cond = flagsOf (t.word ea) ∧
      SameRegsExcept [dr] s t ∧ t.pc = s.pc ∧ t.output = s.output ∧ SameControl s t

/-- R138: LDI: the pointer is read first, then the word it points to, both with `MemRead`; the flags are those of the
final word. `m` is the state between the two reads. -/
def Obligations.LdiLoadsThroughAPointer : Prop :=
  ∀ (dr : Reg) (off : BitVec 9) (s : State), s.mem.wf →
    let ptr := BitVec.ofInt 16 (s.pc.toInt + off.toInt)
    ∃ m t, exec (.ldi dr off) s = .next t ∧ ReadEffect ptr s m ∧ ReadEffect (m.word ptr) m t ∧
      t.reg dr = t.word (m.word ptr) ∧ t.cond = flagsOf (t.reg dr) ∧
      SameRegsExcept [dr] s t ∧ t.pc = s.pc ∧ t.output = s.output ∧ SameControl s t

/-- R132: ST: `x[SR]` at `pc + sext(PCoffset9)`, a plain store at every address; nothing else changes. -/
def Obligations.StStoresPcRelative : Prop :=
  ∀ (sr : Reg) (off : BitVec 9) (s : State), s.mem.wf →
    let ea := BitVec.ofInt 16 (s.pc.toInt + off.toInt)
    ∃ t, exec (.st sr off) s = .next t ∧ t.word ea = s.reg sr ∧ SameMemoryExcept ea s t ∧
      SameRegsExcept [] s t ∧ t.pc = s.pc ∧ t.cond = s.cond ∧ SameConsole s t ∧ SameControl s t

/-- R136: STR: `x[SR]` at `x[BaseR] + sext(offset6)`; nothing else changes. -/
def Obligations.StrStoresBasePlusOffset : Prop :=
  ∀ (sr base : Reg) (off : BitVec 6) (s : State), s.mem.wf →
    let ea := BitVec.ofInt 16 ((s.reg base).toInt + off.toInt)
    ∃ t, exec (.str sr base off) s = .next t ∧ t.word ea = s.reg sr ∧ SameMemoryExcept ea s t ∧
      SameRegsExcept [] s t ∧ t.pc = s.pc ∧ t.cond = s.cond ∧ SameConsole s t ∧ SameControl s t

/-- R140: STI: the pointer is read with `MemRead` first, then `x[SR]` is stored where it points. `m` is the state
between the read and the store. -/
def Obligations.StiStoresThroughAPointer : Prop :=
  ∀ (sr : Reg) (off : BitVec 9) (s : State), s.mem.wf →
    let ptr := BitVec.ofInt 16 (s.pc.toInt + off.toInt)
    ∃ m t, exec (.sti sr off) s = .next t ∧ ReadEffect ptr s m ∧ t.word (m.word ptr) = s.reg sr ∧
      SameMemoryExcept (m.word ptr) m t ∧ SameInput m t ∧
      SameRegsExcept [] s t ∧ t.pc = s.pc ∧ t.cond = s.cond ∧ t.output = s.output ∧ SameControl s t

/-- R142: LEA: the address `pc + sext(PCoffset9)` itself, and its flags; no memory access and no poll. -/
def Obligations.LeaWritesTheAddress : Prop :=
  ∀ (dr : Reg) (off : BitVec 9) (s : State), ∃ t, exec (.lea dr off) s = .next t ∧
    t.reg dr = BitVec.ofInt 16 (s.pc.toInt + off.toInt) ∧ t.cond = flagsOf (t.reg dr) ∧
    SameRegsExcept [dr] s t ∧ t.pc = s.pc ∧ SameMemory s t ∧ SameConsole s t ∧ SameControl s t

/-! ### The keyboard -/

/-- 20_memory.md section 1 (R50, R51): an LDI through a pointer to the status word, with a byte waiting and a draw
that answers yes, loads the status with its high bit set, its low bits kept, and moves the byte to the data word. -/
def Obligations.KeyboardPollDeliversAByte : Prop :=
  ∀ (dr : Reg) (off : BitVec 9) (s : State) (c : Byte) (rest : List Byte), s.mem.wf →
    pcRelative off s ≠ kbsrAddr → s.word (pcRelative off s) = kbsrAddr → s.input = c :: rest →
    nextAnswer s = true →
    ∃ t, exec (.ldi dr off) s = .next t ∧ t.reg dr = s.word kbsrAddr ||| 0x8000#16 ∧ t.cond = 0b100#3 ∧
      t.word kbsrAddr = s.word kbsrAddr ||| 0x8000#16 ∧ t.word kbdrAddr = c.setWidth 16 ∧ t.input = rest

/-- 20_memory.md section 1 (R51, R41): with no byte, or a draw that answers no, the status is cleared and loaded,
the data word keeps its content and nothing is consumed. -/
def Obligations.KeyboardPollFindsNothing : Prop :=
  ∀ (dr : Reg) (off : BitVec 9) (s : State), s.mem.wf →
    pcRelative off s ≠ kbsrAddr → s.word (pcRelative off s) = kbsrAddr → s.input = [] ∨ nextAnswer s = false →
    ∃ t, exec (.ldi dr off) s = .next t ∧ t.reg dr = 0x0000#16 ∧ t.cond = 0b010#3 ∧
      t.word kbsrAddr = 0x0000#16 ∧ t.word kbdrAddr = s.word kbdrAddr ∧ t.input = s.input

/-- 20_memory.md section 1 (R55): two polls in a row with two bytes available leave the second in the data word; the
first is lost to the program. -/
def Obligations.SecondPollOverwritesTheFirstByte : Prop :=
  ∀ (dr base : Reg) (off : BitVec 6) (s : State) (c₁ c₂ : Byte) (rest : List Byte) (answers : List Bool),
    s.mem.wf → dr ≠ base → basePlusOffset base off s = kbsrAddr → s.input = c₁ :: c₂ :: rest →
    s.availability = true :: true :: answers →
    ∃ t u, exec (.ldr dr base off) s = .next t ∧ exec (.ldr dr base off) t = .next u ∧
      u.word kbdrAddr = c₂.setWidth 16 ∧ u.input = rest

/-! ### Control transfer -/

/-- R150: BR: taken exactly when the mask has the flag that `cond` holds; nothing but `pc` changes. -/
def Obligations.BranchTestsTheFlags : Prop :=
  ∀ (nzp : BitVec 3) (off : BitVec 9) (s : State), ∃ t, exec (.br nzp off) s = .next t ∧
    ((∃ i < 3, nzp.getLsbD i = true ∧ s.cond.getLsbD i = true) →
      t.pc = BitVec.ofInt 16 (s.pc.toInt + off.toInt)) ∧
    ((∀ i < 3, nzp.getLsbD i = true → s.cond.getLsbD i = false) → t.pc = s.pc) ∧
    SameRegsExcept [] s t ∧ t.cond = s.cond ∧ SameMemory s t ∧ SameConsole s t ∧ SameControl s t

/-- R153: JSR, both forms: R7 receives the return address and then `pc` the target; the register form reads its base
after R7 was written. -/
def Obligations.JsrLinksAndJumps : Prop :=
  ∀ (off : BitVec 11) (base : Reg) (s : State),
    (∃ t, exec (.jsr off) s = .next t ∧ t.reg 7 = s.pc ∧ t.pc = BitVec.ofInt 16 (s.pc.toInt + off.toInt) ∧
      SameRegsExcept [7] s t ∧ t.cond = s.cond ∧ SameMemory s t ∧ SameConsole s t ∧ SameControl s t) ∧
    (∃ t, exec (.jsrr base) s = .next t ∧ t.reg 7 = s.pc ∧ t.pc = t.reg base ∧
      SameRegsExcept [7] s t ∧ t.cond = s.cond ∧ SameMemory s t ∧ SameConsole s t ∧ SameControl s t)

/-- R154 (its own word; the other words of `JSRR R7` decode alike): the word 0x41C0, `JSRR R7`, falls through with the return address in R7. -/
def Obligations.JsrrThroughR7FallsThrough : Prop :=
  ∀ s : State, s.status = .alive → s.hold = none → s.pc ≠ kbsrAddr → s.word s.pc = 0x41C0#16 →
    ∃ t, step s = .next t ∧ t.pc = s.pc + 1#16 ∧ t.reg 7 = s.pc + 1#16

/-- R156: JMP: `pc` receives the base register; nothing else changes. -/
def Obligations.JmpGoesToTheRegister : Prop :=
  ∀ (base : Reg) (s : State), ∃ t, exec (.jmp base) s = .next t ∧ t.pc = s.reg base ∧
    SameRegsExcept [] s t ∧ t.cond = s.cond ∧ SameMemory s t ∧ SameConsole s t ∧ SameControl s t

/-- 30_encoding.md section 4 (R91): a BR word whose mask has no flag in common with `cond`, as every one with the mask 000 has not and
`0x0000` among them, only advances `pc`. -/
def Obligations.UntakenBranchWordsAreNoOps : Prop :=
  decode 0x0000#16 = .br 0b000#3 0x000#9 ∧
  ∀ s : State, s.status = .alive → s.hold = none → s.pc ≠ kbsrAddr → (s.word s.pc).toNat < 4096 →
    (s.word s.pc).extractLsb' 9 3 &&& s.cond = 0b000#3 → step s = .next { s with pc := s.pc + 1#16 }

/-! ### TRAP -/

/-- 44_trap_services.md section 1 (R161): TRAP, whatever its vector, leaves R7, `pc`, `cond` and memory as they are.
That R7 is kept is decision D9, which the model follows by assumption 13. -/
def Obligations.TrapDoesNotLinkOrJump : Prop :=
  ∀ (i : Instr) (s t : State), i.opcode = .trap → exec i s = .next t →
    t.reg 7 = s.reg 7 ∧ t.pc = s.pc ∧ t.cond = s.cond ∧ t.mem = s.mem

/-- 44_trap_services.md section 2 (R162): GETC with a byte there: it goes to R0 zero-extended, nothing is written to the console. -/
def Obligations.GetcReadsAByte : Prop :=
  ∀ (s : State) (c : Byte) (rest : List Byte), s.input = c :: rest → s.hold = none →
    ∃ t, exec .trapGetc s = .next t ∧ (t.reg 0).toNat = c.toNat ∧ t.input = rest ∧ t.output = s.output ∧
      SameRegsExcept [0] s t ∧ t.pc = s.pc ∧ t.cond = s.cond ∧ SameMemory s t ∧ SameControl s t ∧
      t.availability = s.availability ∧ t.draws = s.draws

/-- 44_trap_services.md section 5 (R168): IN with a byte there: the prompt, the echo, and the byte in R0 zero-extended; for every prompt text. -/
def Obligations.InPromptsReadsAndEchoes : Prop :=
  ∀ (s : State) (c : Byte) (rest : List Byte), s.input = c :: rest → s.hold = none →
    ∃ t, exec .trapIn s = .next t ∧ (t.reg 0).toNat = c.toNat ∧ t.input = rest ∧
      t.output = s.output ++ (Config.inPrompt ++ [c]) ∧
      SameRegsExcept [0] s t ∧ t.pc = s.pc ∧ t.cond = s.cond ∧ SameMemory s t ∧ SameControl s t ∧
      t.availability = s.availability ∧ t.draws = s.draws

/-- 10_state.md section 8 (R42): with no byte there, GETC and IN are held inside their step, IN after its prompt; a
held core stays exactly as it is until a byte is delivered, and the next step then takes it. -/
def Obligations.BlockedReadWaitsForAByte : Prop :=
  ∀ s : State, s.input = [] → s.status = .alive →
    (∃ t, exec .trapGetc s = .next t ∧ (∀ k, Host.Core.run core k t = .next t) ∧
      t.output = s.output ∧ t.reg 0 = s.reg 0 ∧
      ∀ c : Byte, ∃ u, step (deliver c t) = .next u ∧ (u.reg 0).toNat = c.toNat ∧ u.input = [] ∧ u.hold = none ∧
        u.output = s.output ∧ u.pc = s.pc) ∧
    (∃ t, exec .trapIn s = .next t ∧ (∀ k, Host.Core.run core k t = .next t) ∧
      t.output = s.output ++ Config.inPrompt ∧ t.reg 0 = s.reg 0 ∧
      ∀ c : Byte, ∃ u, step (deliver c t) = .next u ∧ (u.reg 0).toNat = c.toNat ∧ u.input = [] ∧ u.hold = none ∧
        u.output = s.output ++ Config.inPrompt ++ [c] ∧ u.pc = s.pc)

/-- R164: OUT appends the low byte of R0 to the console output; nothing else changes. -/
def Obligations.OutWritesTheLowByte : Prop :=
  ∀ s : State, ∃ t, exec .trapOut s = .next t ∧
    (∃ b : Byte, b.toNat = (s.reg 0).toNat % 256 ∧ t.output = s.output ++ [b]) ∧
    SameRegsExcept [] s t ∧ t.pc = s.pc ∧ t.cond = s.cond ∧ SameMemory s t ∧ SameInput s t ∧ SameControl s t

/-- 44_trap_services.md section 4 (R166): PUTS writes the low byte of each of the n words before the first zero word,
whatever the addresses, the keyboard's and a wrap past 0xFFFF among them; nothing else changes. -/
def Obligations.PutsWritesUpToTheZeroWord : Prop :=
  ∀ (s : State) (n : Nat), n < 65536 → s.word (s.reg 0 + BitVec.ofNat 16 n) = 0x0000#16 →
    (∀ i < n, s.word (s.reg 0 + BitVec.ofNat 16 i) ≠ 0x0000#16) →
    ∃ t, exec .trapPuts s = .next t ∧
      t.output = s.output ++ (List.range n).map (fun i => (s.word (s.reg 0 + BitVec.ofNat 16 i)).setWidth 8) ∧
      SameRegsExcept [] s t ∧ t.pc = s.pc ∧ t.cond = s.cond ∧ SameMemory s t ∧ SameInput s t ∧ SameControl s t

/-- 44_trap_services.md section 6 (R170): PUTSP writes for each of the n words before the first zero word its low byte
and then its high byte if that is not zero; nothing else changes. -/
def Obligations.PutspWritesPackedPairs : Prop :=
  ∀ (s : State) (n : Nat), n < 65536 → s.word (s.reg 0 + BitVec.ofNat 16 n) = 0x0000#16 →
    (∀ i < n, s.word (s.reg 0 + BitVec.ofNat 16 i) ≠ 0x0000#16) →
    ∃ t, exec .trapPutsp s = .next t ∧
      t.output = s.output ++ (List.range n).flatMap (fun i =>
        let w := s.word (s.reg 0 + BitVec.ofNat 16 i)
        if w.toNat < 256 then [w.setWidth 8] else [w.setWidth 8, (w >>> 8).setWidth 8]) ∧
      SameRegsExcept [] s t ∧ t.pc = s.pc ∧ t.cond = s.cond ∧ SameMemory s t ∧ SameInput s t ∧ SameControl s t

/-- 44_trap_services.md sections 4 and 6 (R166, R170, the endless case): with no zero word in memory PUTS and PUTSP
never end: after any number of further steps the core is still ALIVE inside the service, with the bytes of one more
word written per step. That the endless service is cut into steps is the model's choice, assumption 3. -/
def Obligations.EndlessStringNeverEnds : Prop :=
  ∀ s : State, (∀ a : Word, s.word a ≠ 0x0000#16) → s.status = .alive →
    (∃ t, exec .trapPuts s = .next t ∧ ∀ k : Nat, ∃ u, Host.Core.run core k t = .next u ∧
      u.status = .alive ∧ u.hold ≠ none ∧ u.pc = s.pc ∧ u.mem = s.mem ∧
      u.output = s.output ++ (List.range k).map (fun i => (s.word (s.reg 0 + BitVec.ofNat 16 i)).setWidth 8)) ∧
    (∃ t, exec .trapPutsp s = .next t ∧ ∀ k : Nat, ∃ u, Host.Core.run core k t = .next u ∧
      u.status = .alive ∧ u.hold ≠ none ∧ u.pc = s.pc ∧ u.mem = s.mem ∧
      u.output = s.output ++ (List.range k).flatMap (fun i =>
        let w := s.word (s.reg 0 + BitVec.ofNat 16 i)
        if w.toNat < 256 then [w.setWidth 8] else [w.setWidth 8, (w >>> 8).setWidth 8]))

/-- 44_trap_services.md section 7 (R172): HALT appends the notice, whatever its text, and makes the core DEAD; nothing
else changes, and no further step changes anything. That the step of a stopped core answers its own state is the
model's choice, assumption 7. -/
def Obligations.HaltStopsTheCore : Prop :=
  ∀ s : State, ∃ t, exec .trapHalt s = .next t ∧ t.status = .dead ∧ t.output = s.output ++ Config.haltNotice ∧
    SameRegsExcept [] s t ∧ t.pc = s.pc ∧ t.cond = s.cond ∧ SameMemory s t ∧ SameInput s t ∧
    t.fault = s.fault ∧ t.hold = s.hold ∧ step t = .next t

/-! ### Fatal errors -/

/-- R190: RTI and RES raise `DecodeError` with their opcode, and nothing else does; nothing but the status and the
record changes. -/
def Obligations.ReservedOpcodesRaiseDecodeError : Prop :=
  (∀ s : State,
    (∃ t, exec .rti s = .next t ∧ t.status = .faulted ∧ t.fault = some (.decodeError 8#4) ∧
      SameRegsExcept [] s t ∧ t.pc = s.pc ∧ t.cond = s.cond ∧ SameMemory s t ∧ SameConsole s t ∧ t.hold = s.hold) ∧
    (∃ t, exec .res s = .next t ∧ t.status = .faulted ∧ t.fault = some (.decodeError 13#4) ∧
      SameRegsExcept [] s t ∧ t.pc = s.pc ∧ t.cond = s.cond ∧ SameMemory s t ∧ SameConsole s t ∧ t.hold = s.hold)) ∧
  ∀ (i : Instr) (s t : State) (op : BitVec 4), exec i s = .next t → t.fault = some (.decodeError op) →
    s.fault = t.fault ∨ i = .rti ∨ i = .res

/-- 44_trap_services.md section 8 (R174): a TRAP with none of the six vectors raises `UndefinedTrapVector` with its
vector; nothing else changes, and no further step changes anything. That such a vector is fatal is decision D8, which
the model follows by assumption 13; that the step of a stopped core answers its own state is its choice, assumption 7. -/
def Obligations.UndefinedVectorIsFatal : Prop :=
  ∀ (v : BitVec 8) (s : State), ∃ t, exec (.trapUndefined v) s = .next t ∧ t.status = .faulted ∧
    t.fault = some (.undefinedTrapVector v) ∧
    SameRegsExcept [] s t ∧ t.pc = s.pc ∧ t.cond = s.cond ∧ SameMemory s t ∧ SameConsole s t ∧ t.hold = s.hold ∧
    step t = .next t

/-- 30_encoding.md section 4 (R90): the words that stop an ALIVE core with a fatal error are those of opcodes 1000 and
1101 and those of TRAP with a vector outside 0x20 to 0x25; every other word is a legal instruction. -/
def Obligations.IllegalWordsAreExactlyTheFatalOnes : Prop :=
  ∀ s t : State, s.status = .alive → s.hold = none → step s = .next t →
    (t.status = .faulted ↔
      (fetch s).1 >>> 12 = 0x8#16 ∨ (fetch s).1 >>> 12 = 0xD#16 ∨
        ((fetch s).1 >>> 12 = 0xF#16 ∧ ((fetch s).1.toNat % 256 < 0x20 ∨ 0x25 < (fetch s).1.toNat % 256)))

/-! ### The host -/

/-- 60_exceptions.md sections 1 and 2 (R196, R210): the host's abort ends a run that is ALIVE, held steps included, with
`InterruptedExecution` and no state, so without reaching DEAD; that a stopped core stays as it is, is the model's
choice, assumption 11. -/
def Obligations.HostAbortEndsOnlyALivingRun : Prop :=
  (∀ s : State, s.status = .alive → hostAbort s = .fault .interruptedExecution) ∧
  ∀ s t : State, hostAbort s = .next t ↔ s.status ≠ .alive ∧ t = s

/-- R212: the process exit code is 0 exactly for DEAD; a fatal error, a LoadError and an abort give another code. -/
def Obligations.ExitCodeIsZeroExactlyForDead : Prop :=
  (∀ s : State, exitCode s = some 0 ↔ s.status = .dead) ∧
  (∀ s : State, s.status = .faulted → ∃ n, exitCode s = some n ∧ n ≠ 0) ∧ ∀ f : Fault, faultExitCode f ≠ 0
end

