-- ==== Sys2Proof/Laws/Decode.lean ====
section
/-! SUPPORT. The opcode numbering is one to one, and no two rows of the opcode table overlap (R84, R97). -/

namespace Sys2Proof

theorem opcodeOf_code (op : Opcode) : opcodeOf op.code = op := by cases op <;> decide

theorem code_opcodeOf (c : BitVec 4) : (opcodeOf c).code = c := by revert c; decide

@[simp] theorem regBits_toFin (r : Reg) : (regBits r).toFin = r := rfl

/-- TRAP decodes to a well-formed instruction whatever the vector. -/
theorem decodeTrap_wellFormed (v : BitVec 8) : (decodeTrap v).wellFormed = true := by revert v; decide

end Sys2Proof
end

