-- ==== Sys2Proof/Laws/State.lean ====
section
/-! SUPPORT. One lemma per field and update of State, each true by rfl, so that no later proof unfolds a record
update; and what reading a register gives after an update. -/

namespace Sys2Proof.Machine

/-! ### setReg -/

@[simp] theorem setReg_x (r : Reg) (v : Word) (s : State) : (s.setReg r v).x = s.x.set r v := rfl
@[simp] theorem setReg_pc (r : Reg) (v : Word) (s : State) : (s.setReg r v).pc = s.pc := rfl
@[simp] theorem setReg_cond (r : Reg) (v : Word) (s : State) : (s.setReg r v).cond = s.cond := rfl
@[simp] theorem setReg_status (r : Reg) (v : Word) (s : State) : (s.setReg r v).status = s.status := rfl
@[simp] theorem setReg_fault (r : Reg) (v : Word) (s : State) : (s.setReg r v).fault = s.fault := rfl
@[simp] theorem setReg_mem (r : Reg) (v : Word) (s : State) : (s.setReg r v).mem = s.mem := rfl
@[simp] theorem setReg_input (r : Reg) (v : Word) (s : State) : (s.setReg r v).input = s.input := rfl
@[simp] theorem setReg_output (r : Reg) (v : Word) (s : State) : (s.setReg r v).output = s.output := rfl
@[simp] theorem setReg_hold (r : Reg) (v : Word) (s : State) : (s.setReg r v).hold = s.hold := rfl
@[simp] theorem setReg_availability (r : Reg) (v : Word) (s : State) : (s.setReg r v).availability = s.availability := rfl
@[simp] theorem setReg_draws (r : Reg) (v : Word) (s : State) : (s.setReg r v).draws = s.draws := rfl

/-! ### setPc -/

@[simp] theorem setPc_x (v : Word) (s : State) : (s.setPc v).x = s.x := rfl
@[simp] theorem setPc_pc (v : Word) (s : State) : (s.setPc v).pc = v := rfl
@[simp] theorem setPc_cond (v : Word) (s : State) : (s.setPc v).cond = s.cond := rfl
@[simp] theorem setPc_status (v : Word) (s : State) : (s.setPc v).status = s.status := rfl
@[simp] theorem setPc_fault (v : Word) (s : State) : (s.setPc v).fault = s.fault := rfl
@[simp] theorem setPc_mem (v : Word) (s : State) : (s.setPc v).mem = s.mem := rfl
@[simp] theorem setPc_input (v : Word) (s : State) : (s.setPc v).input = s.input := rfl
@[simp] theorem setPc_output (v : Word) (s : State) : (s.setPc v).output = s.output := rfl
@[simp] theorem setPc_hold (v : Word) (s : State) : (s.setPc v).hold = s.hold := rfl
@[simp] theorem setPc_availability (v : Word) (s : State) : (s.setPc v).availability = s.availability := rfl
@[simp] theorem setPc_draws (v : Word) (s : State) : (s.setPc v).draws = s.draws := rfl

/-! ### setWord -/

@[simp] theorem setWord_x (a v : Word) (s : State) : (s.setWord a v).x = s.x := rfl
@[simp] theorem setWord_pc (a v : Word) (s : State) : (s.setWord a v).pc = s.pc := rfl
@[simp] theorem setWord_cond (a v : Word) (s : State) : (s.setWord a v).cond = s.cond := rfl
@[simp] theorem setWord_status (a v : Word) (s : State) : (s.setWord a v).status = s.status := rfl
@[simp] theorem setWord_fault (a v : Word) (s : State) : (s.setWord a v).fault = s.fault := rfl
@[simp] theorem setWord_mem (a v : Word) (s : State) : (s.setWord a v).mem = s.mem.writeKey a.toNat v := rfl
@[simp] theorem setWord_input (a v : Word) (s : State) : (s.setWord a v).input = s.input := rfl
@[simp] theorem setWord_output (a v : Word) (s : State) : (s.setWord a v).output = s.output := rfl
@[simp] theorem setWord_hold (a v : Word) (s : State) : (s.setWord a v).hold = s.hold := rfl
@[simp] theorem setWord_availability (a v : Word) (s : State) : (s.setWord a v).availability = s.availability := rfl
@[simp] theorem setWord_draws (a v : Word) (s : State) : (s.setWord a v).draws = s.draws := rfl

/-! ### setCond -/

@[simp] theorem setCond_x (c : BitVec 3) (s : State) : (s.setCond c).x = s.x := rfl
@[simp] theorem setCond_pc (c : BitVec 3) (s : State) : (s.setCond c).pc = s.pc := rfl
@[simp] theorem setCond_cond (c : BitVec 3) (s : State) : (s.setCond c).cond = c := rfl
@[simp] theorem setCond_status (c : BitVec 3) (s : State) : (s.setCond c).status = s.status := rfl
@[simp] theorem setCond_fault (c : BitVec 3) (s : State) : (s.setCond c).fault = s.fault := rfl
@[simp] theorem setCond_mem (c : BitVec 3) (s : State) : (s.setCond c).mem = s.mem := rfl
@[simp] theorem setCond_input (c : BitVec 3) (s : State) : (s.setCond c).input = s.input := rfl
@[simp] theorem setCond_output (c : BitVec 3) (s : State) : (s.setCond c).output = s.output := rfl
@[simp] theorem setCond_hold (c : BitVec 3) (s : State) : (s.setCond c).hold = s.hold := rfl
@[simp] theorem setCond_availability (c : BitVec 3) (s : State) : (s.setCond c).availability = s.availability := rfl
@[simp] theorem setCond_draws (c : BitVec 3) (s : State) : (s.setCond c).draws = s.draws := rfl

/-! ### setCC -/

@[simp] theorem setCC_x (v : Word) (s : State) : (setCC v s).x = s.x := rfl
@[simp] theorem setCC_pc (v : Word) (s : State) : (setCC v s).pc = s.pc := rfl
@[simp] theorem setCC_cond (v : Word) (s : State) : (setCC v s).cond = flagsOf v := rfl
@[simp] theorem setCC_status (v : Word) (s : State) : (setCC v s).status = s.status := rfl
@[simp] theorem setCC_fault (v : Word) (s : State) : (setCC v s).fault = s.fault := rfl
@[simp] theorem setCC_mem (v : Word) (s : State) : (setCC v s).mem = s.mem := rfl
@[simp] theorem setCC_input (v : Word) (s : State) : (setCC v s).input = s.input := rfl
@[simp] theorem setCC_output (v : Word) (s : State) : (setCC v s).output = s.output := rfl
@[simp] theorem setCC_hold (v : Word) (s : State) : (setCC v s).hold = s.hold := rfl
@[simp] theorem setCC_availability (v : Word) (s : State) : (setCC v s).availability = s.availability := rfl
@[simp] theorem setCC_draws (v : Word) (s : State) : (setCC v s).draws = s.draws := rfl

/-! ### writeResult -/

@[simp] theorem writeResult_x (r : Reg) (v : Word) (s : State) : (writeResult r v s).x = s.x.set r v := rfl
@[simp] theorem writeResult_pc (r : Reg) (v : Word) (s : State) : (writeResult r v s).pc = s.pc := rfl
@[simp] theorem writeResult_cond (r : Reg) (v : Word) (s : State) : (writeResult r v s).cond = flagsOf v := rfl
@[simp] theorem writeResult_status (r : Reg) (v : Word) (s : State) : (writeResult r v s).status = s.status := rfl
@[simp] theorem writeResult_fault (r : Reg) (v : Word) (s : State) : (writeResult r v s).fault = s.fault := rfl
@[simp] theorem writeResult_mem (r : Reg) (v : Word) (s : State) : (writeResult r v s).mem = s.mem := rfl
@[simp] theorem writeResult_input (r : Reg) (v : Word) (s : State) : (writeResult r v s).input = s.input := rfl
@[simp] theorem writeResult_output (r : Reg) (v : Word) (s : State) : (writeResult r v s).output = s.output := rfl
@[simp] theorem writeResult_hold (r : Reg) (v : Word) (s : State) : (writeResult r v s).hold = s.hold := rfl
@[simp] theorem writeResult_availability (r : Reg) (v : Word) (s : State) : (writeResult r v s).availability = s.availability := rfl
@[simp] theorem writeResult_draws (r : Reg) (v : Word) (s : State) : (writeResult r v s).draws = s.draws := rfl

/-! ### memWrite -/

@[simp] theorem memWrite_x (a v : Word) (s : State) : (memWrite a v s).x = s.x := rfl
@[simp] theorem memWrite_pc (a v : Word) (s : State) : (memWrite a v s).pc = s.pc := rfl
@[simp] theorem memWrite_cond (a v : Word) (s : State) : (memWrite a v s).cond = s.cond := rfl
@[simp] theorem memWrite_status (a v : Word) (s : State) : (memWrite a v s).status = s.status := rfl
@[simp] theorem memWrite_fault (a v : Word) (s : State) : (memWrite a v s).fault = s.fault := rfl
@[simp] theorem memWrite_mem (a v : Word) (s : State) : (memWrite a v s).mem = s.mem.writeKey a.toNat v := rfl
@[simp] theorem memWrite_input (a v : Word) (s : State) : (memWrite a v s).input = s.input := rfl
@[simp] theorem memWrite_output (a v : Word) (s : State) : (memWrite a v s).output = s.output := rfl
@[simp] theorem memWrite_hold (a v : Word) (s : State) : (memWrite a v s).hold = s.hold := rfl
@[simp] theorem memWrite_availability (a v : Word) (s : State) : (memWrite a v s).availability = s.availability := rfl
@[simp] theorem memWrite_draws (a v : Word) (s : State) : (memWrite a v s).draws = s.draws := rfl

/-! ### out -/

@[simp] theorem out_x (bs : List Byte) (s : State) : (out bs s).x = s.x := rfl
@[simp] theorem out_pc (bs : List Byte) (s : State) : (out bs s).pc = s.pc := rfl
@[simp] theorem out_cond (bs : List Byte) (s : State) : (out bs s).cond = s.cond := rfl
@[simp] theorem out_status (bs : List Byte) (s : State) : (out bs s).status = s.status := rfl
@[simp] theorem out_fault (bs : List Byte) (s : State) : (out bs s).fault = s.fault := rfl
@[simp] theorem out_mem (bs : List Byte) (s : State) : (out bs s).mem = s.mem := rfl
@[simp] theorem out_input (bs : List Byte) (s : State) : (out bs s).input = s.input := rfl
@[simp] theorem out_output (bs : List Byte) (s : State) : (out bs s).output = s.output ++ bs := rfl
@[simp] theorem out_hold (bs : List Byte) (s : State) : (out bs s).hold = s.hold := rfl
@[simp] theorem out_availability (bs : List Byte) (s : State) : (out bs s).availability = s.availability := rfl
@[simp] theorem out_draws (bs : List Byte) (s : State) : (out bs s).draws = s.draws := rfl

/-! ### raise -/

@[simp] theorem raise_x (e : FatalError) (s : State) : (raise e s).x = s.x := rfl
@[simp] theorem raise_pc (e : FatalError) (s : State) : (raise e s).pc = s.pc := rfl
@[simp] theorem raise_cond (e : FatalError) (s : State) : (raise e s).cond = s.cond := rfl
@[simp] theorem raise_status (e : FatalError) (s : State) : (raise e s).status = .faulted := rfl
@[simp] theorem raise_fault (e : FatalError) (s : State) : (raise e s).fault = some e := rfl
@[simp] theorem raise_mem (e : FatalError) (s : State) : (raise e s).mem = s.mem := rfl
@[simp] theorem raise_input (e : FatalError) (s : State) : (raise e s).input = s.input := rfl
@[simp] theorem raise_output (e : FatalError) (s : State) : (raise e s).output = s.output := rfl
@[simp] theorem raise_hold (e : FatalError) (s : State) : (raise e s).hold = s.hold := rfl
@[simp] theorem raise_availability (e : FatalError) (s : State) : (raise e s).availability = s.availability := rfl
@[simp] theorem raise_draws (e : FatalError) (s : State) : (raise e s).draws = s.draws := rfl

/-! ### deliver -/

@[simp] theorem deliver_x (c : Byte) (s : State) : (deliver c s).x = s.x := rfl
@[simp] theorem deliver_pc (c : Byte) (s : State) : (deliver c s).pc = s.pc := rfl
@[simp] theorem deliver_cond (c : Byte) (s : State) : (deliver c s).cond = s.cond := rfl
@[simp] theorem deliver_status (c : Byte) (s : State) : (deliver c s).status = s.status := rfl
@[simp] theorem deliver_fault (c : Byte) (s : State) : (deliver c s).fault = s.fault := rfl
@[simp] theorem deliver_mem (c : Byte) (s : State) : (deliver c s).mem = s.mem := rfl
@[simp] theorem deliver_input (c : Byte) (s : State) : (deliver c s).input = s.input ++ [c] := rfl
@[simp] theorem deliver_output (c : Byte) (s : State) : (deliver c s).output = s.output := rfl
@[simp] theorem deliver_hold (c : Byte) (s : State) : (deliver c s).hold = s.hold := rfl
@[simp] theorem deliver_availability (c : Byte) (s : State) : (deliver c s).availability = s.availability := rfl
@[simp] theorem deliver_draws (c : Byte) (s : State) : (deliver c s).draws = s.draws := rfl

/-! ### Registers -/

theorem reg_setReg (r r' : Reg) (v : Word) (s : State) :
    (s.setReg r v).reg r' = if r = r' then v else s.reg r' := by
  simp [State.reg, Vector.getElem_set, Fin.ext_iff]

@[simp] theorem reg_setReg_same (r : Reg) (v : Word) (s : State) : (s.setReg r v).reg r = v := by
  simp [reg_setReg]

theorem reg_setReg_ne {r r' : Reg} (h : r ≠ r') (v : Word) (s : State) : (s.setReg r v).reg r' = s.reg r' := by
  simp [reg_setReg, h]

@[simp] theorem reg_setPc (v : Word) (s : State) (r' : Reg) : (s.setPc v).reg r' = s.reg r' := rfl
@[simp] theorem reg_setWord (a v : Word) (s : State) (r' : Reg) : (s.setWord a v).reg r' = s.reg r' := rfl
@[simp] theorem reg_setCond (c : BitVec 3) (s : State) (r' : Reg) : (s.setCond c).reg r' = s.reg r' := rfl
@[simp] theorem reg_setCC (v : Word) (s : State) (r' : Reg) : (setCC v s).reg r' = s.reg r' := rfl
@[simp] theorem reg_memWrite (a v : Word) (s : State) (r' : Reg) : (memWrite a v s).reg r' = s.reg r' := rfl
@[simp] theorem reg_out (bs : List Byte) (s : State) (r' : Reg) : (out bs s).reg r' = s.reg r' := rfl
@[simp] theorem reg_raise (e : FatalError) (s : State) (r' : Reg) : (raise e s).reg r' = s.reg r' := rfl
@[simp] theorem reg_deliver (c : Byte) (s : State) (r' : Reg) : (deliver c s).reg r' = s.reg r' := rfl

theorem reg_writeResult (r r' : Reg) (v : Word) (s : State) :
    (writeResult r v s).reg r' = if r = r' then v else s.reg r' := reg_setReg r r' v s

@[simp] theorem reg_writeResult_same (r : Reg) (v : Word) (s : State) : (writeResult r v s).reg r = v :=
  reg_setReg_same r v s

/-! ### Memory words under updates that are no store -/

@[simp] theorem word_setReg (r : Reg) (v : Word) (s : State) (b : Word) : (s.setReg r v).word b = s.word b := rfl
@[simp] theorem word_setPc (v : Word) (s : State) (b : Word) : (s.setPc v).word b = s.word b := rfl
@[simp] theorem word_setCond (c : BitVec 3) (s : State) (b : Word) : (s.setCond c).word b = s.word b := rfl
@[simp] theorem word_setCC (v : Word) (s : State) (b : Word) : (setCC v s).word b = s.word b := rfl
@[simp] theorem word_writeResult (r : Reg) (v : Word) (s : State) (b : Word) : (writeResult r v s).word b = s.word b := rfl
@[simp] theorem word_out (bs : List Byte) (s : State) (b : Word) : (out bs s).word b = s.word b := rfl
@[simp] theorem word_raise (e : FatalError) (s : State) (b : Word) : (raise e s).word b = s.word b := rfl
@[simp] theorem word_deliver (c : Byte) (s : State) (b : Word) : (deliver c s).word b = s.word b := rfl

/-- A write of a register twice is the last one. -/
theorem setReg_setReg (r : Reg) (v v' : Word) (s : State) : (s.setReg r v).setReg r v' = s.setReg r v' := by
  simp [State.setReg]

/-- Writes of two registers commute. -/
theorem setReg_comm {r r' : Reg} (h : r ≠ r') (v v' : Word) (s : State) :
    (s.setReg r v).setReg r' v' = (s.setReg r' v').setReg r v := by
  have hne : (r : Nat) ≠ r' := fun e => h (Fin.ext e)
  simp only [State.setReg]
  rw [Vector.set_comm _ _ hne]

end Sys2Proof.Machine
end

