-- ==== Sys2Proof/Laws/Memory.lean ====
section
/-! SUPPORT. The memory array: read after write, and that every operation on memory keeps the canonical form. -/

namespace Sys2Proof.Machine

/-! ### Keys -/

@[simp] theorem readKey_nil (k : Nat) : Memory.readKey k [] = unlistedWord := rfl

theorem readKey_cons (k k' : Nat) (v : Word) (m : Memory) :
    Memory.readKey k ((k', v) :: m) = if k' = k then v else Memory.readKey k m := rfl

theorem writeKey_cons (k k' : Nat) (v v' : Word) (m : Memory) :
    Memory.writeKey k v ((k', v') :: m) =
      if k < k' then (if v = unlistedWord then (k', v') :: m else (k, v) :: (k', v') :: m)
      else if k = k' then (if v = unlistedWord then m else (k, v) :: m)
      else (k', v') :: Memory.writeKey k v m := rfl

theorem wf_nil : Memory.wf [] := by simp [Memory.wf]

theorem wf_cons {k : Nat} {v : Word} {m : Memory} :
    Memory.wf ((k, v) :: m) ↔ (∀ c ∈ m, k < c.1) ∧ k < 65536 ∧ v ≠ unlistedWord ∧ Memory.wf m := by
  simp only [Memory.wf, List.map_cons, List.pairwise_cons, List.mem_map, List.mem_cons, forall_eq_or_imp,
    forall_exists_index, and_imp, forall_apply_eq_imp_iff₂]
  tauto

/-- A key below every listed one is not listed. -/
theorem readKey_of_lt {k : Nat} {m : Memory} (h : ∀ c ∈ m, k < c.1) : Memory.readKey k m = unlistedWord := by
  induction m with
  | nil => rfl
  | cons c m ih =>
    obtain ⟨k', v⟩ := c
    have hk : k < k' := h (k', v) (by simp)
    rw [readKey_cons, if_neg (by omega), ih (fun c hc => h c (by simp [hc]))]

theorem readKey_writeKey_ne {k k' : Nat} (h : k ≠ k') (v : Word) (m : Memory) :
    Memory.readKey k' (Memory.writeKey k v m) = Memory.readKey k' m := by
  induction m with
  | nil =>
    rw [Memory.writeKey]
    split
    · rfl
    · rw [readKey_cons, if_neg h]
  | cons c m ih =>
    obtain ⟨j, w⟩ := c
    rw [writeKey_cons]
    split_ifs with h₁ h₂ h₃ h₄
    · rfl
    · rw [readKey_cons, if_neg h]
    · rw [readKey_cons, if_neg (h₃ ▸ h)]
    · rw [readKey_cons, readKey_cons, if_neg h, if_neg (h₃ ▸ h)]
    · rw [readKey_cons, readKey_cons, ih]

theorem readKey_writeKey_same (k : Nat) (v : Word) {m : Memory} (hm : m.wf) :
    Memory.readKey k (Memory.writeKey k v m) = v := by
  induction m with
  | nil =>
    rw [Memory.writeKey]
    split
    · next h => rw [h]; rfl
    · rw [readKey_cons, if_pos rfl]
  | cons c m ih =>
    obtain ⟨j, w⟩ := c
    obtain ⟨hlt, -, -, hm'⟩ := wf_cons.1 hm
    rw [writeKey_cons]
    split_ifs with h₁ h₂ h₃ h₄
    · rw [h₂, readKey_cons, if_neg (by omega), readKey_of_lt (fun c hc => lt_trans h₁ (hlt c hc))]
    · rw [readKey_cons, if_pos rfl]
    · rw [h₄, readKey_of_lt (fun c hc => h₃ ▸ hlt c hc)]
    · rw [readKey_cons, if_pos rfl]
    · rw [readKey_cons, if_neg (Ne.symm h₃), ih hm']

theorem mem_writeKey {k : Nat} {v : Word} {m : Memory} {c : Cell} (h : c ∈ Memory.writeKey k v m) :
    c = (k, v) ∨ c ∈ m := by
  induction m with
  | nil =>
    rw [Memory.writeKey] at h
    split at h <;> simp_all
  | cons d m ih =>
    obtain ⟨j, w⟩ := d
    rw [writeKey_cons] at h
    split_ifs at h <;> simp only [List.mem_cons] at h ⊢ <;> tauto

theorem wf_writeKey {k : Nat} (hk : k < 65536) (v : Word) {m : Memory} (hm : m.wf) :
    (Memory.writeKey k v m).wf := by
  induction m with
  | nil =>
    rw [Memory.writeKey]
    split
    · exact wf_nil
    · next h => exact wf_cons.2 ⟨by simp, hk, h, wf_nil⟩
  | cons c m ih =>
    obtain ⟨j, w⟩ := c
    obtain ⟨hlt, hj, hw, hm'⟩ := wf_cons.1 hm
    rw [writeKey_cons]
    split_ifs with h₁ h₂ h₃ h₄
    · exact hm
    · refine wf_cons.2 ⟨?_, hk, h₂, hm⟩
      intro c hc
      rcases List.mem_cons.1 hc with rfl | hc
      · exact h₁
      · exact lt_trans h₁ (hlt c hc)
    · exact hm'
    · exact wf_cons.2 ⟨fun c hc => h₃ ▸ hlt c hc, hk, h₄, hm'⟩
    · refine wf_cons.2 ⟨?_, hj, hw, ih hm'⟩
      intro c hc
      rcases mem_writeKey hc with rfl | hc
      · show j < k; omega
      · exact hlt c hc

/-- Equal words at every key make equal canonical memories: the canonical form is one form. -/
theorem wf_ext {m m' : Memory} (hm : m.wf) (hm' : m'.wf) (h : ∀ k, m.readKey k = m'.readKey k) : m = m' := by
  induction m generalizing m' with
  | nil =>
    cases m' with
    | nil => rfl
    | cons c m' =>
      obtain ⟨k, v⟩ := c
      have hv := (wf_cons.1 hm').2.2.1
      have := h k
      rw [readKey_cons, if_pos rfl] at this
      exact absurd this.symm hv
  | cons c m ih =>
    obtain ⟨k, v⟩ := c
    obtain ⟨hlt, -, hv, hm₁⟩ := wf_cons.1 hm
    cases m' with
    | nil =>
      have := h k
      rw [readKey_cons, if_pos rfl] at this
      exact absurd this hv
    | cons c' m' =>
      obtain ⟨k', v'⟩ := c'
      obtain ⟨hlt', -, hv', hm₁'⟩ := wf_cons.1 hm'
      have hk : k = k' := by
        rcases Nat.lt_trichotomy k k' with hlt₁ | heq | hlt₁
        · have h₁ := h k
          rw [readKey_cons, if_pos rfl, readKey_cons, if_neg (by omega),
            readKey_of_lt (fun c hc => lt_trans hlt₁ (hlt' c hc))] at h₁
          exact absurd h₁ hv
        · exact heq
        · have h₁ := h k'
          rw [readKey_cons, if_neg (by omega), readKey_of_lt (fun c hc => lt_trans hlt₁ (hlt c hc)),
            readKey_cons, if_pos rfl] at h₁
          exact absurd h₁.symm hv'
      subst hk
      have hvv : v = v' := by
        have h₁ := h k
        rwa [readKey_cons, if_pos rfl, readKey_cons, if_pos rfl] at h₁
      subst hvv
      congr 1
      refine ih hm₁ hm₁' (fun j => ?_)
      by_cases hj : k = j
      · subst hj
        rw [readKey_of_lt hlt, readKey_of_lt hlt']
      · have h₁ := h j
        rwa [readKey_cons, if_neg hj, readKey_cons, if_neg hj] at h₁

/-! ### Words of the state -/

theorem word_setWord_same (a v : Word) {s : State} (hm : s.mem.wf) : (s.setWord a v).word a = v :=
  readKey_writeKey_same _ _ hm

theorem word_setWord_ne {a b : Word} (h : a ≠ b) (v : Word) (s : State) : (s.setWord a v).word b = s.word b :=
  readKey_writeKey_ne (fun e => h (BitVec.eq_of_toNat_eq e)) _ _

theorem word_setWord (a b v : Word) {s : State} (hm : s.mem.wf) :
    (s.setWord a v).word b = if a = b then v else s.word b := by
  split
  · next h => rw [h, word_setWord_same b v hm]
  · next h => rw [word_setWord_ne h]

theorem wf_setWord (a v : Word) {s : State} (hm : s.mem.wf) : (s.setWord a v).mem.wf :=
  wf_writeKey a.isLt v hm


/-! ### Loading an image (R225) -/

/-- What loading leaves alone. -/
theorem loadWords_frame (a : Word) (ws : List Word) (s : State) :
    loadWords a ws s = { s with mem := (loadWords a ws s).mem } := by
  induction ws generalizing a s with
  | nil => rfl
  | cons w ws ih => rw [loadWords, ih]; rfl

theorem wf_loadWords (a : Word) (ws : List Word) {s : State} (hm : s.mem.wf) : (loadWords a ws s).mem.wf := by
  induction ws generalizing a s with
  | nil => exact hm
  | cons w ws ih => exact ih _ (wf_setWord a w hm)

end Sys2Proof.Machine
end

