-- ==== Sys2Proof/Laws/Ops.lean ====
section
/-! SUPPORT. One lemma per shared operation of Machine/Ops.lean, Operands.lean and Trap.lean: what it can do, for
later proofs to cite. -/

namespace Sys2Proof.Machine

/-! ### The draw and the poll (R41, R51) -/

/-- The state after one draw. -/
def afterDraw (s : State) : State := { s with
  availability := s.availability.tail
  draws := s.draws + (if s.availability = [] then 1 else 0) }

/-- The state with other unread input. -/
def withInput (bs : List Byte) (s : State) : State := { s with input := bs }

/-- A draw answers `nextAnswer` and changes only the draws. -/
theorem drawAvailable_eq (s : State) : drawAvailable s = (nextAnswer s, afterDraw s) := by
  unfold drawAvailable nextAnswer afterDraw
  split
  · next h => simp [h]
  · next h => simp [h]

theorem takeIfAvailable_nil {s : State} (h : s.input = []) : takeIfAvailable s = (none, s) := by
  unfold takeIfAvailable; rw [h]

theorem takeIfAvailable_cons {s : State} {c : Byte} {rest : List Byte} (h : s.input = c :: rest) :
    takeIfAvailable s =
      if nextAnswer s then (some c, withInput rest (afterDraw s)) else (none, afterDraw s) := by
  unfold takeIfAvailable; rw [h]
  simp only [drawAvailable_eq]
  rfl

/-- A poll that finds no unread byte clears the status word. -/
theorem keyboardPoll_nil {s : State} (h : s.input = []) :
    keyboardPoll s = s.setWord kbsrAddr 0x0000#16 := by
  unfold keyboardPoll; rw [takeIfAvailable_nil h]

/-- A poll whose draw answers no clears the status word. -/
theorem keyboardPoll_unavailable {s : State} {c : Byte} {rest : List Byte} (h : s.input = c :: rest)
    (ha : nextAnswer s = false) : keyboardPoll s = (afterDraw s).setWord kbsrAddr 0x0000#16 := by
  unfold keyboardPoll; rw [takeIfAvailable_cons h, ha]; rfl

/-- A poll whose draw answers yes takes the byte. -/
theorem keyboardPoll_available {s : State} {c : Byte} {rest : List Byte} (h : s.input = c :: rest)
    (ha : nextAnswer s = true) :
    keyboardPoll s = ((withInput rest (afterDraw s)).setWord kbsrAddr
      (s.word kbsrAddr ||| 0x8000#16)).setWord kbdrAddr (zext16 c) := by
  unfold keyboardPoll; rw [takeIfAvailable_cons h, ha]; rfl

/-- A poll changes memory, the input and the draws only. -/
theorem keyboardPoll_frame (s : State) :
    keyboardPoll s = { s with
      mem := (keyboardPoll s).mem
      input := (keyboardPoll s).input
      availability := (keyboardPoll s).availability
      draws := (keyboardPoll s).draws } := by
  rcases h : s.input with _ | ⟨c, rest⟩
  · rw [keyboardPoll_nil h]; rfl
  · cases ha : nextAnswer s
    · rw [keyboardPoll_unavailable h ha]; rfl
    · rw [keyboardPoll_available h ha]; rfl

theorem wf_keyboardPoll {s : State} (hm : s.mem.wf) : (keyboardPoll s).mem.wf := by
  rcases h : s.input with _ | ⟨c, rest⟩
  · rw [keyboardPoll_nil h]; exact wf_setWord _ _ hm
  · cases ha : nextAnswer s
    · rw [keyboardPoll_unavailable h ha]; exact wf_setWord _ _ hm
    · rw [keyboardPoll_available h ha]; exact wf_setWord _ _ (wf_setWord _ _ hm)

/-! ### MemRead and fetch (R50, R111) -/

/-- A read elsewhere than at `KBSR_ADDR` is pure. -/
theorem memRead_of_ne {a : Word} (h : a ≠ kbsrAddr) (s : State) : memRead a s = (s.word a, s) := by
  unfold memRead; simp only [if_neg h]

/-- A read at `KBSR_ADDR` polls first. -/
theorem memRead_kbsr (s : State) : memRead kbsrAddr s = ((keyboardPoll s).word kbsrAddr, keyboardPoll s) := by
  unfold memRead; simp only [if_true]

/-- The word returned is the cell as the read leaves it. -/
theorem memRead_fst (a : Word) (s : State) : (memRead a s).1 = (memRead a s).2.word a := rfl

theorem memRead_frame (a : Word) (s : State) :
    (memRead a s).2 = { s with
      mem := (memRead a s).2.mem
      input := (memRead a s).2.input
      availability := (memRead a s).2.availability
      draws := (memRead a s).2.draws } := by
  by_cases h : a = kbsrAddr
  · subst h; rw [memRead_kbsr]; exact keyboardPoll_frame s
  · rw [memRead_of_ne h]

theorem wf_memRead (a : Word) {s : State} (hm : s.mem.wf) : (memRead a s).2.mem.wf := by
  by_cases h : a = kbsrAddr
  · subst h; rw [memRead_kbsr]; exact wf_keyboardPoll hm
  · rw [memRead_of_ne h]; exact hm

section
variable (a : Word) (s : State)
@[simp] theorem memRead_x : (memRead a s).2.x = s.x := by rw [memRead_frame]
@[simp] theorem memRead_pc : (memRead a s).2.pc = s.pc := by rw [memRead_frame]
@[simp] theorem memRead_cond : (memRead a s).2.cond = s.cond := by rw [memRead_frame]
@[simp] theorem memRead_status : (memRead a s).2.status = s.status := by rw [memRead_frame]
@[simp] theorem memRead_fault : (memRead a s).2.fault = s.fault := by rw [memRead_frame]
@[simp] theorem memRead_output : (memRead a s).2.output = s.output := by rw [memRead_frame]
@[simp] theorem memRead_hold : (memRead a s).2.hold = s.hold := by rw [memRead_frame]
@[simp] theorem memRead_reg (r : Reg) : (memRead a s).2.reg r = s.reg r := by simp [State.reg]
end

/-- A fetch is a read at `pc` and the increment. -/
theorem fetch_eq (s : State) :
    fetch s = ((memRead s.pc s).1, (memRead s.pc s).2.setPc (s.pc + 1#16)) := by
  unfold fetch; simp

section
variable (s : State)
@[simp] theorem fetch_x : (fetch s).2.x = s.x := by simp [fetch_eq]
@[simp] theorem fetch_pc : (fetch s).2.pc = s.pc + 1#16 := by simp [fetch_eq]
@[simp] theorem fetch_cond : (fetch s).2.cond = s.cond := by simp [fetch_eq]
@[simp] theorem fetch_status : (fetch s).2.status = s.status := by simp [fetch_eq]
@[simp] theorem fetch_fault : (fetch s).2.fault = s.fault := by simp [fetch_eq]
@[simp] theorem fetch_output : (fetch s).2.output = s.output := by simp [fetch_eq]
@[simp] theorem fetch_hold : (fetch s).2.hold = s.hold := by simp [fetch_eq]
@[simp] theorem fetch_reg (r : Reg) : (fetch s).2.reg r = s.reg r := by simp [State.reg]
end

theorem wf_fetch {s : State} (hm : s.mem.wf) : (fetch s).2.mem.wf := by
  rw [fetch_eq]; exact wf_memRead _ hm

/-! ### Blocking reads (R42) -/

theorem blockingRead_nil (r : ReadService) {s : State} (h : s.input = []) :
    blockingRead r s = { s with hold := some (.read r) } := by
  unfold blockingRead; rw [h]

theorem blockingRead_cons (r : ReadService) {s : State} {c : Byte} {rest : List Byte} (h : s.input = c :: rest) :
    blockingRead r s = finishRead r c { s with input := rest, hold := none } := by
  unfold blockingRead; rw [h]

/-- A blocking read changes the input, the output, the step in progress and R0 only. -/
theorem blockingRead_frame (r : ReadService) (s : State) :
    blockingRead r s = { s with
      x := (blockingRead r s).x
      input := (blockingRead r s).input
      output := (blockingRead r s).output
      hold := (blockingRead r s).hold } := by
  unfold blockingRead
  split
  · rfl
  · cases r <;> rfl

theorem blockingRead_reg_ne (r : ReadService) {d : Reg} (h : d ≠ 0) (s : State) :
    (blockingRead r s).reg d = s.reg d := by
  unfold blockingRead
  split
  · rfl
  · cases r <;> exact reg_setReg_ne (Ne.symm h) _ _

/-- A blocking read is held by the same service, or it has completed. -/
theorem blockingRead_hold (r : ReadService) (s : State) :
    (blockingRead r s).hold = some (.read r) ∨ (blockingRead r s).hold = none := by
  unfold blockingRead
  split
  · exact .inl rfl
  · cases r <;> exact .inr rfl

/-! ### Strings (R166, R170) -/

/-- A string that ends at word n is the n words before it. -/
theorem stringWords_of_zero (s : State) {n fuel : Nat} (hn : n < fuel) (a : Word)
    (hz : s.word (a + BitVec.ofNat 16 n) = 0x0000#16)
    (hnz : ∀ i < n, s.word (a + BitVec.ofNat 16 i) ≠ 0x0000#16) :
    stringWords s fuel a = some ((List.range n).map fun i => s.word (a + BitVec.ofNat 16 i)) := by
  induction n generalizing a fuel with
  | zero =>
    obtain ⟨f, rfl⟩ : ∃ f, fuel = f + 1 := ⟨fuel - 1, by omega⟩
    rw [stringWords, if_pos (by simpa using hz)]; rfl
  | succ n ih =>
    obtain ⟨f, rfl⟩ : ∃ f, fuel = f + 1 := ⟨fuel - 1, by omega⟩
    have hshift : ∀ i : Nat, a + 1#16 + BitVec.ofNat 16 i = a + BitVec.ofNat 16 (i + 1) := by
      intro i; rw [BitVec.ofNat_add, BitVec.add_assoc, BitVec.add_comm (BitVec.ofNat 16 i)]
    rw [stringWords, if_neg (by simpa using hnz 0 (by omega)),
      ih (by omega) (a + 1#16) (by rw [hshift]; exact hz)
        (fun i hi => by rw [hshift]; exact hnz (i + 1) (by omega)), List.range_succ_eq_map]
    simp [hshift, Function.comp_def]

/-- Without a zero word among the first `fuel`, no string is found. -/
theorem stringWords_eq_none_iff (s : State) (fuel : Nat) (a : Word) :
    stringWords s fuel a = none ↔ ∀ i < fuel, s.word (a + BitVec.ofNat 16 i) ≠ 0x0000#16 := by
  induction fuel generalizing a with
  | zero => simp [stringWords]
  | succ f ih =>
    have hshift : ∀ i : Nat, a + 1#16 + BitVec.ofNat 16 i = a + BitVec.ofNat 16 (i + 1) := by
      intro i; rw [BitVec.ofNat_add, BitVec.add_assoc, BitVec.add_comm (BitVec.ofNat 16 i)]
    rw [stringWords]
    split
    · next h =>
      simp only [reduceCtorEq, false_iff, not_forall]
      exact ⟨0, by omega, by simpa using h⟩
    · next h =>
      rw [Option.map_eq_none_iff, ih]
      constructor
      · intro H i hi
        cases i with
        | zero => simpa using h
        | succ i => rw [← hshift]; exact H i (by omega)
      · intro H i hi
        rw [hshift]; exact H (i + 1) (by omega)

/-- A string service finds no end exactly when no word of memory is zero. -/
theorem stringAt_eq_none_iff (a : Word) (s : State) :
    stringAt a s = none ↔ ∀ b, s.word b ≠ 0x0000#16 := by
  rw [stringAt, stringWords_eq_none_iff]
  constructor
  · intro H b
    have := H (b - a).toNat (b - a).isLt
    rwa [BitVec.ofNat_toNat, BitVec.setWidth_eq, BitVec.add_comm, BitVec.sub_add_cancel] at this
  · intro H i _
    exact H _

/-- A string service writes, or begins the endless string; nothing else changes. -/
theorem putString_cases (k : StringService) (s : State) :
    (∃ ws, stringAt (s.reg 0) s = some ws ∧ putString k s = out (ws.flatMap (wordBytes k)) s) ∨
    (stringAt (s.reg 0) s = none ∧ putString k s = { s with hold := some (.string k (s.reg 0)) }) := by
  unfold putString
  rcases h : stringAt (s.reg 0) s with _ | ws
  · exact .inr ⟨rfl, rfl⟩
  · exact .inl ⟨ws, rfl, rfl⟩

/-- A string service that finds its end writes the bytes of the words before it. -/
theorem putString_of_zero (k : StringService) (s : State) {n : Nat} (hn : n < 65536)
    (hz : s.word (s.reg 0 + BitVec.ofNat 16 n) = 0x0000#16)
    (hnz : ∀ i < n, s.word (s.reg 0 + BitVec.ofNat 16 i) ≠ 0x0000#16) :
    putString k s =
      out (((List.range n).map fun i => s.word (s.reg 0 + BitVec.ofNat 16 i)).flatMap (wordBytes k)) s := by
  unfold putString stringAt
  rw [stringWords_of_zero s hn _ hz hnz]

/-- A string service changes the output and the step in progress only. -/
theorem putString_frame (k : StringService) (s : State) :
    putString k s = { s with output := (putString k s).output, hold := (putString k s).hold } := by
  rcases putString_cases k s with ⟨ws, -, h⟩ | ⟨-, h⟩ <;> simp only [h, out]

/-- A held string service without an end goes on by one word. -/
theorem resume_string {s : State} {a : Word} (h : s.word a ≠ 0x0000#16) (k : StringService) :
    resume (.string k a) s = out (wordBytes k (s.word a)) { s with hold := some (.string k (a + 1#16)) } := by
  unfold resume; simp only [if_neg h]

/-! ### Operand forms (R10, R144) and loads -/

/-- Sign-extended sums are sums of the signed values modulo 2^16. -/
theorem ofInt_add_toInt {n : Nat} (hn : n ≤ 16) (w : Word) (f : BitVec n) :
    BitVec.ofInt 16 (w.toInt + f.toInt) = w + sext16 f := by
  apply BitVec.eq_of_toInt_eq
  rw [BitVec.toInt_ofInt, BitVec.toInt_add, sext16, BitVec.toInt_signExtend_of_le hn]

theorem lowByte_eq (w : Word) : lowByte w = w.setWidth 8 := by
  unfold lowByte; apply BitVec.eq_of_toNat_eq; simp

theorem highByte_eq (w : Word) : highByte w = (w >>> 8).setWidth 8 := by
  unfold highByte; apply BitVec.eq_of_toNat_eq; simp

/-- A load is the read and then the result. -/
theorem loadFrom_eq (dr : Reg) (a : Word) (s : State) :
    loadFrom dr a s = writeResult dr (memRead a s).1 (memRead a s).2 := rfl

/-- An indirect address is the word read at the pointer. -/
theorem indirect_eq (off : BitVec 9) (s : State) : indirect off s = memRead (pcRelative off s) s := rfl

/-! ### Flags (R114) -/

/-- The flags of a word are one of the three masks. -/
theorem flagsOf_mem (v : Word) : flagsOf v ∈ [flPos, flZero, flNeg] := by
  unfold flagsOf; split_ifs <;> simp

end Sys2Proof.Machine
end

