-- ==== Sys2Proof/Laws/PerInstr.lean ====
section
/-! SUPPORT. Per instruction: the encoder writes the opcode of the instruction into instr[15:12] (R84, R88);
only RTI has no word (R90). -/

namespace Sys2Proof.Laws.EncodesOpcode

/-- The opcode field of the encoded word is the instruction's opcode, and an instruction without one is RTI. -/
def Statement (i : Instr) : Prop :=
  match encode i with
  | some w => opcodeOf (fieldOpcode w) = i.opcode
  | none => i = .rti

/-- A word built with an opcode has it. -/
theorem of_withOpcode (op : Opcode) (rest : BitVec 12) : opcodeOf (fieldOpcode (withOpcode op rest)) = op := by
  have h : fieldOpcode (withOpcode op rest) = op.code := BitVec.extractLsb'_append_eq_left
  rw [h, opcodeOf_code]

theorem br (nzp : BitVec 3) (off : BitVec 9) : Statement (.br nzp off) := of_withOpcode _ _

theorem addReg (dr sr1 sr2 : Reg) : Statement (.addReg dr sr1 sr2) := of_withOpcode _ _

theorem addImm (dr sr1 : Reg) (imm5 : BitVec 5) : Statement (.addImm dr sr1 imm5) := of_withOpcode _ _

theorem ld (dr : Reg) (off : BitVec 9) : Statement (.ld dr off) := of_withOpcode _ _

theorem st (sr : Reg) (off : BitVec 9) : Statement (.st sr off) := of_withOpcode _ _

theorem jsr (off : BitVec 11) : Statement (.jsr off) := of_withOpcode _ _

theorem jsrr (base : Reg) : Statement (.jsrr base) := of_withOpcode _ _

theorem andReg (dr sr1 sr2 : Reg) : Statement (.andReg dr sr1 sr2) := of_withOpcode _ _

theorem andImm (dr sr1 : Reg) (imm5 : BitVec 5) : Statement (.andImm dr sr1 imm5) := of_withOpcode _ _

theorem ldr (dr base : Reg) (off : BitVec 6) : Statement (.ldr dr base off) := of_withOpcode _ _

theorem str (sr base : Reg) (off : BitVec 6) : Statement (.str sr base off) := of_withOpcode _ _

theorem rti : Statement (.rti) := rfl

theorem not (dr sr : Reg) : Statement (.not dr sr) := of_withOpcode _ _

theorem ldi (dr : Reg) (off : BitVec 9) : Statement (.ldi dr off) := of_withOpcode _ _

theorem sti (sr : Reg) (off : BitVec 9) : Statement (.sti sr off) := of_withOpcode _ _

theorem jmp (base : Reg) : Statement (.jmp base) := of_withOpcode _ _

theorem res : Statement (.res) := of_withOpcode _ _

theorem lea (dr : Reg) (off : BitVec 9) : Statement (.lea dr off) := of_withOpcode _ _

theorem trapGetc : Statement (.trapGetc) := of_withOpcode _ _

theorem trapOut : Statement (.trapOut) := of_withOpcode _ _

theorem trapPuts : Statement (.trapPuts) := of_withOpcode _ _

theorem trapIn : Statement (.trapIn) := of_withOpcode _ _

theorem trapPutsp : Statement (.trapPutsp) := of_withOpcode _ _

theorem trapHalt : Statement (.trapHalt) := of_withOpcode _ _

theorem trapUndefined (v : BitVec 8) : Statement (.trapUndefined v) := of_withOpcode _ _

end Sys2Proof.Laws.EncodesOpcode
end

