-- ==== Sys2Proof/Laws/Step.lean ====
section
/-! SUPPORT. What a step is, by the status and the step in progress: the cases every proof about a step splits into. -/

namespace Sys2Proof.Machine

theorem step_of_fetch {s : State} (ha : s.status = .alive) (hh : s.hold = none) :
    step s = exec (decode (fetch s).1) (fetch s).2 := by
  unfold step; rw [ha, hh]

theorem step_of_hold {s : State} {h : Hold} (ha : s.status = .alive) (hh : s.hold = some h) :
    step s = .next (resume h s) := by
  unfold step; simp only [ha, hh]

theorem step_of_stopped {s : State} (hs : s.status ≠ .alive) : step s = .next s := by
  unfold step; split <;> first | rfl | contradiction

/-- A step runs an instruction, goes on with a held one, or changes nothing. -/
theorem step_cases {s t : State} (h : step s = .next t) :
    (s.status = .alive ∧ s.hold = none ∧ exec (decode (fetch s).1) (fetch s).2 = .next t) ∨
    (s.status = .alive ∧ ∃ d, s.hold = some d ∧ t = resume d s) ∨
    (s.status ≠ .alive ∧ t = s) := by
  by_cases ha : s.status = .alive
  · rcases hh : s.hold with _ | d
    · exact .inl ⟨ha, rfl, by rw [← step_of_fetch ha hh]; exact h⟩
    · rw [step_of_hold ha hh] at h
      cases h
      exact .inr (.inl ⟨ha, d, rfl, rfl⟩)
  · rw [step_of_stopped ha] at h
    cases h
    exact .inr (.inr ⟨ha, rfl⟩)

end Sys2Proof.Machine
end

