-- ==== Sys2Proof/Tests/Slice0.lean ====
section
/-! SUPPORT. Tests. Expected values are the vectors of 95_test_vectors.md (S.., V..) and the words of 30_encoding.md
section 6; then, for each statement with hypotheses, a witness that meets them together. -/

namespace Sys2Proof.Tests

open Sys2Proof Sys2Proof.Machine

/-! ### Well-formedness: the one check, and a term it refuses -/

theorem test_wellFormed_refuses_service_vector : (Instr.trapUndefined 0x25#8).wellFormed = false := by decide
theorem test_wellFormed_accepts_other_vector : (Instr.trapUndefined 0x26#8).wellFormed = true := by decide

/-! ### Decoding: each constructor from a word written out field by field -/

/-- V54 -/
theorem test_decode_br : decode 0b0000_001_111111101#16 = .br 0b001#3 0x1FD#9 := by decide
/-- V120 -/
theorem test_decode_br_nop : decode 0b0000_000_000000000#16 = .br 0b000#3 0x000#9 := by decide
/-- section 6 -/
theorem test_decode_addReg : decode 0b0001_000_000_0_00_001#16 = .addReg 0 0 1 := by decide
/-- V122 -/
theorem test_decode_addReg_ignored : decode 0b0001_111_111_0_11_111#16 = .addReg 7 7 7 := by decide
/-- S4 -/
theorem test_decode_addImm : decode 0b0001_011_001_1_10111#16 = .addImm 3 1 0b10111#5 := by decide
/-- V30 -/
theorem test_decode_ld : decode 0b0010_010_000001111#16 = .ld 2 0x00F#9 := by decide
/-- V36 -/
theorem test_decode_st : decode 0b0011_000_000000001#16 = .st 0 0x001#9 := by decide
/-- S6 -/
theorem test_decode_jsr : decode 0b0100_1_11000001100#16 = .jsr 0x60C#11 := by decide
/-- V59 -/
theorem test_decode_jsrr : decode 0b0100_0_00_011_000000#16 = .jsrr 3 := by decide
/-- V125 -/
theorem test_decode_jsrr_ignored : decode 0b0100_0_11_111_111111#16 = .jsrr 7 := by decide
/-- V18 -/
theorem test_decode_andReg : decode 0b0101_010_000_0_00_001#16 = .andReg 2 0 1 := by decide
/-- V16 -/
theorem test_decode_andImm : decode 0b0101_010_001_1_10000#16 = .andImm 2 1 0b10000#5 := by decide
/-- V37 -/
theorem test_decode_ldr : decode 0b0110_010_001_111111#16 = .ldr 2 1 0x3F#6 := by decide
/-- section 6 -/
theorem test_decode_str : decode 0b0111_000_001_111111#16 = .str 0 1 0x3F#6 := by decide
/-- V91 -/
theorem test_decode_rti : decode 0b1000_111111111111#16 = .rti := by decide
/-- S9 -/
theorem test_decode_not : decode 0b1001_001_000_111111#16 = .not 1 0 := by decide
/-- V24 -/
theorem test_decode_not_ignored : decode 0b1001_001_000_000000#16 = .not 1 0 := by decide
/-- S5 -/
theorem test_decode_ldi : decode 0b1010_010_000001111#16 = .ldi 2 0x00F#9 := by decide
/-- V43 -/
theorem test_decode_sti : decode 0b1011_011_000000100#16 = .sti 3 0x004#9 := by decide
/-- V62 -/
theorem test_decode_jmp : decode 0b1100_111_011_111111#16 = .jmp 3 := by decide
/-- V93 -/
theorem test_decode_res : decode 0b1101_101010111100#16 = .res := by decide
/-- V44 -/
theorem test_decode_lea : decode 0b1110_001_100000000#16 = .lea 1 0x100#9 := by decide
/-- V70 -/
theorem test_decode_trapGetc : decode 0b1111_0000_00100000#16 = .trapGetc := by decide
/-- V74 -/
theorem test_decode_trapOut : decode 0b1111_0101_00100001#16 = .trapOut := by decide
/-- V75 -/
theorem test_decode_trapPuts : decode 0b1111_0000_00100010#16 = .trapPuts := by decide
/-- V78 -/
theorem test_decode_trapIn : decode 0b1111_0000_00100011#16 = .trapIn := by decide
/-- V79 -/
theorem test_decode_trapPutsp : decode 0b1111_0000_00100100#16 = .trapPutsp := by decide
/-- V127 -/
theorem test_decode_trapHalt : decode 0b1111_1111_00100101#16 = .trapHalt := by decide
/-- V126 -/
theorem test_decode_trapUndefined : decode 0b1111_1111_11111111#16 = .trapUndefined 0xFF#8 := by decide

/-- The encoder on the words of 30_encoding.md section 6; RTI has no word (R90). -/
theorem test_encode_examples :
    encode (.addImm 3 1 (signedField 5 (-9))) = some 0x1677#16 ∧ encode (.jsr (signedField 11 (-500))) = some 0x4E0C#16 ∧
    encode (.not 0 0) = some 0x903F#16 ∧ encode (.br 0b001#3 (signedField 9 (-3))) = some 0x03FD#16 ∧
    encode (.jmp 7) = some 0xC1C0#16 ∧ encode (.jsrr 2) = some 0x4080#16 ∧ encode .trapHalt = some 0xF025#16 ∧
    encode .rti = none := by decide

/-! ### One step on a small state -/

/-- The state of a vector: the word at pc, and what differs from reset. -/
def vec (pc w : Word) (regs : List (Reg × Word)) (cells : List (Word × Word)) (cond : BitVec 3) : State :=
  { (cells.foldl (fun s c => s.setWord c.1 c.2)
      (regs.foldl (fun s r => s.setReg r.1 r.2) (State.reset.setWord pc w))) with pc := pc, cond := cond }

/-- The same state with console input and the answers to its draws. -/
def withConsole (bs : List Byte) (answers : List Bool) (s : State) : State :=
  { s with input := bs, availability := answers }

/-- Does the step end in a next state with the property? -/
def after (s : State) (p : State → Bool) : Bool :=
  match step s with
  | .next t => p t
  | .fault _ => false
  | .refused _ => false

/-- V10 -/
theorem test_add_wraps_to_zero :
    after (vec 0x3000#16 0x1401#16 [(0, 0xFFFF), (1, 0x0001)] [] 0) (fun t => decide (t.reg 2 = 0x0000 ∧ t.cond = 0b010 ∧ t.pc = 0x3001)) = true := by decide
/-- V12 -/
theorem test_add_same_register :
    after (vec 0x3000#16 0x1241#16 [(1, 0x4000)] [] 0) (fun t => decide (t.reg 1 = 0x8000 ∧ t.cond = 0b100)) = true := by decide
/-- S4 -/
theorem test_add_negative_immediate :
    after (vec 0x3000#16 0x1677#16 [(1, 0x0005)] [] 0) (fun t => decide (t.reg 3 = 0xFFFC ∧ t.cond = 0b100 ∧ t.pc = 0x3001)) = true := by decide
/-- V18 -/
theorem test_and_register :
    after (vec 0x3000#16 0x5401#16 [(0, 0xFF00), (1, 0x0FF0)] [] 0) (fun t => decide (t.reg 2 = 0x0F00 ∧ t.cond = 0b001)) = true := by decide
/-- V16 -/
theorem test_and_sign_extends :
    after (vec 0x3000#16 0x5470#16 [(1, 0xABCD)] [] 0) (fun t => decide (t.reg 2 = 0xABC0 ∧ t.cond = 0b100)) = true := by decide
/-- V22 -/
theorem test_not_to_zero :
    after (vec 0x3000#16 0x923F#16 [(0, 0xFFFF)] [] 0) (fun t => decide (t.reg 1 = 0x0000 ∧ t.cond = 0b010)) = true := by decide
/-- V31 -/
theorem test_ld_own_word :
    after (vec 0x3000#16 0x23FF#16 [] [] 0) (fun t => decide (t.reg 1 = 0x23FF ∧ t.cond = 0b001)) = true := by decide
/-- V32 -/
theorem test_ld_wraps :
    after (vec 0xFFFF#16 0x2200#16 [] [(0x0000, 0xBEEF)] 0) (fun t => decide (t.reg 1 = 0xBEEF ∧ t.cond = 0b100 ∧ t.pc = 0x0000)) = true := by decide
/-- V35 -/
theorem test_st_own_word :
    after (vec 0x3000#16 0x33FF#16 [(1, 0xF025)] [] 0) (fun t => decide (t.word 0x3000 = 0xF025 ∧ t.cond = 0b000)) = true := by decide
/-- V38 -/
theorem test_ldr_base_is_destination :
    after (vec 0x3000#16 0x625F#16 [(1, 0x4000)] [(0x401F, 0x0042)] 0) (fun t => decide (t.reg 1 = 0x0042 ∧ t.cond = 0b001)) = true := by decide
/-- V37 -/
theorem test_ldr_wraps_below_zero :
    after (vec 0x3000#16 0x647F#16 [] [(0xFFFF, 0x8001)] 0) (fun t => decide (t.reg 2 = 0x8001 ∧ t.cond = 0b100)) = true := by decide
/-- V40 -/
theorem test_str_base_is_source :
    after (vec 0x3000#16 0x7241#16 [(1, 0x5000)] [] 0) (fun t => decide (t.word 0x5001 = 0x5000 ∧ t.reg 1 = 0x5000)) = true := by decide
/-- S5 -/
theorem test_ldi_two_reads :
    after (vec 0x3000#16 0xA40F#16 [] [(0x3010, 0x3100), (0x3100, 0x00AB)] 0) (fun t => decide (t.reg 2 = 0x00AB ∧ t.cond = 0b001 ∧ t.pc = 0x3001)) = true := by decide
/-- V43 -/
theorem test_sti_stores_at_pointer :
    after (vec 0x3002#16 0xB604#16 [(3, 0x8002)] [(0x3007, 0x4001)] 0) (fun t => decide (t.word 0x4001 = 0x8002 ∧ t.word 0x3007 = 0x4001 ∧ t.pc = 0x3003)) = true := by decide
/-- V106 -/
theorem test_sti_to_kbsr_does_not_poll :
    after (withConsole [0x61#8] [true] (vec 0x3000#16 0xB201#16 [(1, 0x1234)] [(0x3002, 0xFE00)] 0)) (fun t => decide (t.word 0xFE00 = 0x1234 ∧ t.input = [0x61#8])) = true := by decide
/-- V45 -/
theorem test_lea_sets_flags :
    after (vec 0x0000#16 0xE3FF#16 [] [] 0) (fun t => decide (t.reg 1 = 0x0000 ∧ t.cond = 0b010 ∧ t.pc = 0x0001)) = true := by decide
/-- V109 -/
theorem test_lea_does_not_poll :
    after (withConsole [0x61#8] [true] (vec 0xFD00#16 0xE0FF#16 [] [] 0)) (fun t => decide (t.reg 0 = 0xFE00 ∧ t.cond = 0b100 ∧ t.input = [0x61#8])) = true := by decide
/-- V50 -/
theorem test_br_not_taken_at_reset :
    after (vec 0x3000#16 0x0E05#16 [] [] 0) (fun t => decide (t.pc = 0x3001)) = true := by decide
/-- V52 -/
theorem test_br_to_itself :
    after (vec 0x3000#16 0x09FF#16 [] [] 0b100) (fun t => decide (t.pc = 0x3000 ∧ t.cond = 0b100)) = true := by decide
/-- S6 -/
theorem test_jsr_links :
    after (vec 0x3004#16 0x4E0C#16 [] [] 0) (fun t => decide (t.reg 7 = 0x3005 ∧ t.pc = 0x2E11)) = true := by decide
/-- V60 -/
theorem test_jsrr_r7_falls_through :
    after (vec 0x3000#16 0x41C0#16 [(7, 0x9999)] [] 0) (fun t => decide (t.reg 7 = 0x3001 ∧ t.pc = 0x3001)) = true := by decide
/-- V62 -/
theorem test_jmp_ignores_bits :
    after (vec 0x3000#16 0xCEFF#16 [(3, 0x4000), (7, 0x1111)] [] 0) (fun t => decide (t.pc = 0x4000 ∧ t.reg 7 = 0x1111)) = true := by decide
/-- V90 -/
theorem test_rti_is_fatal :
    after (vec 0x3000#16 0x8000#16 [] [] 0) (fun t => decide (t.status = .faulted ∧ t.fault = some (.decodeError 8) ∧ t.pc = 0x3001)) = true := by decide
/-- V92 -/
theorem test_res_is_fatal :
    after (vec 0x3000#16 0xD000#16 [] [] 0) (fun t => decide (t.status = .faulted ∧ t.fault = some (.decodeError 13) ∧ t.pc = 0x3001)) = true := by decide
/-- V82 -/
theorem test_undefined_vector_is_fatal :
    after (vec 0x3000#16 0xF026#16 [] [] 0) (fun t => decide (t.status = .faulted ∧ t.fault = some (.undefinedTrapVector 0x26) ∧ t.output = [])) = true := by decide
/-- V71 -/
theorem test_getc_clears_high_byte :
    after (withConsole [0xFF#8] [] (vec 0x3000#16 0xF020#16 [(0, 0xABCD)] [] 0)) (fun t => decide (t.reg 0 = 0x00FF ∧ t.cond = 0b000 ∧ t.input = [] ∧ t.hold = none)) = true := by decide
/-- V72 -/
theorem test_getc_waits :
    after (vec 0x3000#16 0xF020#16 [] [] 0) (fun t => decide (t.hold = some (.read .getc) ∧ t.status = .alive ∧ t.pc = 0x3001)) = true := by decide
/-- V73 -/
theorem test_out_low_byte :
    after (vec 0x3000#16 0xF021#16 [(0, 0x1241)] [] 0) (fun t => decide (t.output = [0x41#8])) = true := by decide
/-- V76 -/
theorem test_puts_low_bytes :
    after (vec 0x3000#16 0xF022#16 [(0, 0x4003)] [(0x4003, 0x0141), (0x4004, 0x0100), (0x4005, 0x0042)] 0) (fun t => decide (t.output = [0x41#8, 0x00#8, 0x42#8] ∧ t.reg 0 = 0x4003)) = true := by decide
/-- V77 -/
theorem test_puts_wraps :
    after (vec 0x3000#16 0xF022#16 [(0, 0xFFFF)] [(0xFFFF, 0x0041), (0x0000, 0x0042)] 0) (fun t => decide (t.output = [0x41#8, 0x42#8])) = true := by decide
/-- V79 -/
theorem test_putsp_pairs :
    after (vec 0x3000#16 0xF024#16 [(0, 0x3008)] [(0x3008, 0x6548), (0x3009, 0x0079)] 0) (fun t => decide (t.output = [0x48#8, 0x65#8, 0x79#8])) = true := by decide
/-- V80 -/
theorem test_putsp_zero_low_byte :
    after (vec 0x3000#16 0xF024#16 [(0, 0x3003)] [(0x3003, 0x4100), (0x3004, 0x0042)] 0) (fun t => decide (t.output = [0x00#8, 0x41#8, 0x42#8])) = true := by decide
/-- V105 -/
theorem test_poll_delivers :
    after (withConsole [0x7A#8] [true] (vec 0x3000#16 0xA001#16 [] [(0x3002, 0xFE00), (0xFE00, 0x0001)] 0)) (fun t => decide (t.reg 0 = 0x8001 ∧ t.word 0xFE00 = 0x8001 ∧ t.word 0xFE02 = 0x007A ∧ t.input = [])) = true := by decide
/-- V101 -/
theorem test_poll_not_yet_available :
    after (withConsole [0x61#8] [false] (vec 0x3000#16 0xA001#16 [] [(0x3002, 0xFE00), (0xFE00, 0x8000)] 0)) (fun t => decide (t.reg 0 = 0x0000 ∧ t.cond = 0b010 ∧ t.word 0xFE00 = 0x0000 ∧ t.input = [0x61#8])) = true := by decide
/-- V104 -/
theorem test_data_word_read_is_pure :
    after (withConsole [0x63#8] [true] (vec 0x3000#16 0xA001#16 [] [(0x3002, 0xFE02), (0xFE02, 0x0062)] 0)) (fun t => decide (t.reg 0 = 0x0062 ∧ t.word 0xFE02 = 0x0062 ∧ t.input = [0x63#8])) = true := by decide
/-- V107 -/
theorem test_fetch_polls :
    after (withConsole [0x71#8] [true] (vec 0xFE00#16 0x0000#16 [] [] 0)) (fun t => decide (t.word 0xFE00 = 0x8000 ∧ t.word 0xFE02 = 0x0071 ∧ t.pc = 0xFE01 ∧ t.fault = some (.decodeError 8))) = true := by decide
/-- V78: the prompt, whatever its text, then the echo. -/
theorem test_in_prompts_and_echoes :
    ∃ t, step (withConsole [0x79#8] [] (vec 0x3000#16 0xF023#16 [] [] 0)) = .next t ∧ t.reg 0 = 0x0079#16 ∧
      t.output = Config.inPrompt ++ [0x79#8] ∧ t.cond = 0b000#3 := ⟨_, rfl, rfl, rfl, rfl⟩
/-- V81: the notice, whatever its text. -/
theorem test_halt_prints_notice :
    ∃ t, step (vec 0x3000#16 0xF025#16 [] [] 0) = .next t ∧ t.status = .dead ∧ t.output = Config.haltNotice ∧
      t.pc = 0x3001#16 := ⟨_, rfl, rfl, rfl, rfl⟩
/-- R224's example file launches its image. -/
theorem test_launch_file :
    (match launch [0x30#8, 0x00#8, 0x10#8, 0x25#8, 0xF0#8, 0x25#8] with
      | .next t => decide (t.pc = 0x3000#16 ∧ t.word 0x3000#16 = 0x1025#16 ∧ t.word 0x3001#16 = 0xF025#16)
      | .fault _ => false
      | .refused _ => false) = true := by decide
/-- S7 on the host's interface: the word placed at reset is the instruction the first step runs. -/
theorem test_placed_word_runs :
    after (State.reset.withFetchWord 16 0x1025) (fun t => decide (t.reg 0 = 0x0005#16 ∧ t.pc = 0x0001#16)) = true := by
  decide

/-! ### Witnesses of the statements' hypotheses -/

/-- A state with an instruction to fetch. -/
def fetching : State := vec 0x3000#16 0x1021#16 [] [] 0

theorem reset_inv : State.reset.Inv :=
  ⟨wf_nil, by decide, by decide, fun _ => rfl, fun _ _ h => nomatch h⟩

theorem fetching_wf : fetching.mem.wf := wf_setWord _ _ wf_nil

theorem fetching_inv : fetching.Inv :=
  ⟨fetching_wf, (by decide : (0#3 : BitVec 3) ∈ legalConds), by decide, fun _ => rfl, fun _ _ h => nomatch h⟩

theorem witness_DecodeEncodeRoundTrip :
    (Instr.trapUndefined 0x1F#8).wellFormed = true ∧ encode (.trapUndefined 0x1F#8) = some 0xF01F#16 ∧
    canonicalWord 0x903F#16 = true ∧ decode 0x903F#16 ≠ .rti ∧ canonicalWord 0x9000#16 = false ∧
    (signedField 5 (-16)).toInt = -16 ∧ (signedField 6 31).toInt = 31 ∧ (signedField 9 (-256)).toInt = -256 ∧
    (signedField 11 1023).toInt = 1023 := by decide
theorem witness_EveryWordDecodesByItsTableRow :
    (Instr.trapUndefined 0#8).row.matchesWord 0xF025#16 = true ∧ Instr.trapHalt.row.matchesWord 0xF025#16 = true := by
  decide
theorem witness_IgnoredBitsDoNotMatter : 0x0018#16 &&& ignoredBits (decode 0x1001#16) = 0x0018#16 := by decide
theorem witness_ExtensionOfFields : (5 : Nat) ∈ [5, 6, 9, 11] ∧ (11 : Nat) ∈ [5, 6, 9, 11] := by decide
theorem witness_LaunchLoadsTheImage :
    let img : Image := ⟨0xFFFE#16, [0x1025#16, 0xF025#16]⟩
    img.words ≠ [] ∧ img.fits ∧ 1 < img.words.length ∧ ∀ i < img.words.length, 0x0000#16 ≠ img.origin + BitVec.ofNat 16 i := by
  decide
theorem witness_LaunchOfAProgramFile :
    ([0x30#8, 0x00#8, 0x10#8] : List Byte).length < 4 ∧ (0xFFFF#16).toNat + (([] : List Word).length + 1) ≤ 65536 := by decide
theorem witness_StepRunsTheDecodedInstruction :
    fetching.mem.wf ∧ fetching.status = .alive ∧ fetching.hold = none := ⟨fetching_wf, rfl, rfl⟩
theorem witness_PlacedWordRunsFirst : (0xF025 : Nat) < 65536 := by decide
theorem witness_StoppedCoreStaysAsItIs : (raise (.decodeError 8#4) State.reset).status ≠ .alive := by decide
theorem witness_StepKeepsInvariant : ∃ t, fetching.Inv ∧ step fetching = .next t := ⟨_, fetching_inv, rfl⟩
theorem witness_ReachableStatesMeetInvariant : Reachable (launchState ⟨0x3000#16, [0xF025#16]⟩) :=
  .launched _ (by decide) (by decide)
theorem witness_ProgramCounterAfterAStep :
    ∃ t, fetching.status = .alive ∧ fetching.hold = none ∧ step fetching = .next t := ⟨_, rfl, rfl, rfl⟩
theorem witness_StoreIsSeenByTheNextFetch :
    (∃ t, exec (.st 0 0x000#9) fetching = .next t ∧ t.pc ≠ kbsrAddr ∧ t.pc = pcRelative 0x000#9 fetching) ∧
    (∃ t, exec (.str 0 1 0x00#6) (fetching.setReg 1 0x3000#16) = .next t ∧
      t.pc = basePlusOffset 1 0x00#6 (fetching.setReg 1 0x3000#16)) ∧
    (∃ t, exec (.sti 0 0x001#9) (fetching.setWord 0x3001#16 0x3000#16) = .next t ∧
      t.pc = (indirect 0x001#9 (fetching.setWord 0x3001#16 0x3000#16)).1) :=
  ⟨⟨_, rfl, by decide, rfl⟩, ⟨_, rfl, rfl⟩, ⟨_, rfl, by decide⟩⟩
theorem witness_FlagsFollowTheWrittenWord :
    (∃ t, exec (.addImm 0 0 0x1F#5) State.reset = .next t ∧ (t.reg 0).toInt < 0) ∧
    (∃ t, exec (.addImm 0 0 0x00#5) State.reset = .next t ∧ (t.reg 0).toInt = 0) ∧
    (∃ t, exec (.addImm 0 0 0x01#5) State.reset = .next t ∧ (t.reg 0).toInt > 0) ∧
    ∃ t, exec (.jmp 0) State.reset = .next t ∧ flagDest (.jmp 0) = none :=
  ⟨⟨_, rfl, by decide⟩, ⟨_, rfl, by decide⟩, ⟨_, rfl, by decide⟩, ⟨_, rfl, rfl⟩⟩
theorem witness_OnlyBranchReadsTheFlags :
    ∃ t, (∀ nzp off, Instr.jmp 0 ≠ .br nzp off) ∧ exec (.jmp 0) State.reset = .next t :=
  ⟨_, (fun _ _ h => by cases h), rfl⟩
theorem witness_FlagsAreNoneOrOne :
    ∃ t, step fetching = .next t ∧ fetching.status = .alive ∧ fetching.hold = none ∧
      (flagDest (decode (fetch fetching).1)).isSome = true := ⟨_, rfl, rfl, rfl, by decide⟩
theorem witness_RegistersReadAndWritten :
    ∃ t, exec (.addReg 0 1 2) State.reset = .next t ∧ (3 : Reg) ∉ readRegs (.addReg 0 1 2) ∧ t.hold = none :=
  ⟨_, rfl, by decide, rfl⟩
theorem witness_OnlyStoresAndPollsWriteMemory :
    ∃ t, (Instr.ld 0 0#9).opcode ∉ [Opcode.st, .str, .sti] ∧ exec (.ld 0 0#9) State.reset = .next t ∧
      0x0000#16 ≠ kbsrAddr ∧ 0x0000#16 ≠ kbdrAddr := ⟨_, by decide, rfl, by decide, by decide⟩
theorem witness_ConsoleStreamsAreInOrder : ∃ t, step fetching = .next t := ⟨_, rfl⟩
theorem witness_OnlyTrapServicesPrint :
    ∃ t, (vec 0x3000#16 0xF021#16 [] [] 0).status = .alive ∧ (vec 0x3000#16 0xF021#16 [] [] 0).hold = none ∧
      step (vec 0x3000#16 0xF021#16 [] [] 0) = .next t ∧ t.output ≠ (vec 0x3000#16 0xF021#16 [] [] 0).output :=
  ⟨_, rfl, rfl, rfl, by decide⟩
theorem witness_StatusChangesOnlyByHaltOrFatalError :
    ∃ t, State.reset.status = .alive ∧ exec .rti State.reset = .next t ∧ t.status = .faulted := ⟨_, rfl, rfl, rfl⟩
theorem witness_memory_wf : State.reset.mem.wf := wf_nil

/-- A pointer to the keyboard status word, and two bytes of input. -/
def polling (answers : List Bool) : State :=
  withConsole [0x61#8, 0x62#8] answers (vec 0x3000#16 0x0000#16 [(1, 0xFE00#16)] [(0x3001#16, 0xFE00#16)] 0)

theorem polling_wf (answers : List Bool) : (polling answers).mem.wf := wf_setWord _ _ (wf_setWord _ _ wf_nil)

theorem witness_KeyboardPollDeliversAByte :
    (polling [true]).mem.wf ∧ pcRelative 0x001#9 (polling [true]) ≠ kbsrAddr ∧
    (polling [true]).word (pcRelative 0x001#9 (polling [true])) = kbsrAddr ∧
    (polling [true]).input = 0x61#8 :: [0x62#8] ∧ nextAnswer (polling [true]) = true :=
  ⟨polling_wf _, by decide, by decide, rfl, rfl⟩
theorem witness_KeyboardPollFindsNothing :
    ((polling [false]).mem.wf ∧ pcRelative 0x001#9 (polling [false]) ≠ kbsrAddr ∧
      (polling [false]).word (pcRelative 0x001#9 (polling [false])) = kbsrAddr ∧ nextAnswer (polling [false]) = false) ∧
    (withConsole [] [] (polling [])).word (pcRelative 0x001#9 (withConsole [] [] (polling []))) = kbsrAddr ∧
    (withConsole [] [] (polling [])).input = [] :=
  ⟨⟨polling_wf _, by decide, by decide, rfl⟩, by decide, rfl⟩
theorem witness_SecondPollOverwritesTheFirstByte :
    (polling [true, true]).mem.wf ∧ (0 : Reg) ≠ 1 ∧ basePlusOffset 1 0x00#6 (polling [true, true]) = kbsrAddr ∧
    (polling [true, true]).input = 0x61#8 :: 0x62#8 :: [] ∧ (polling [true, true]).availability = true :: true :: [] :=
  ⟨polling_wf _, by decide, by decide, rfl, rfl⟩
theorem witness_BranchTestsTheFlags :
    (∃ i < 3, (0b100#3).getLsbD i = true ∧ (vec 0 0 [] [] 0b100).cond.getLsbD i = true) ∧
    ∀ i < 3, (0b011#3).getLsbD i = true → (vec 0 0 [] [] 0b100).cond.getLsbD i = false :=
  ⟨⟨2, by decide⟩, by decide⟩
theorem witness_JsrrThroughR7FallsThrough :
    (vec 0x3000#16 0x41C0#16 [] [] 0).status = .alive ∧ (vec 0x3000#16 0x41C0#16 [] [] 0).hold = none ∧
    (vec 0x3000#16 0x41C0#16 [] [] 0).pc ≠ kbsrAddr ∧
    (vec 0x3000#16 0x41C0#16 [] [] 0).word (vec 0x3000#16 0x41C0#16 [] [] 0).pc = 0x41C0#16 :=
  ⟨rfl, rfl, by decide, by decide⟩
theorem witness_UntakenBranchWordsAreNoOps :
    let s := vec 0x3000#16 0x0FFF#16 [] [] 0
    s.status = .alive ∧ s.hold = none ∧ s.pc ≠ kbsrAddr ∧ (s.word s.pc).toNat < 4096 ∧
      (s.word s.pc).extractLsb' 9 3 &&& s.cond = 0b000#3 := ⟨rfl, rfl, by decide, by decide, by decide⟩
theorem witness_TrapDoesNotLinkOrJump :
    ∃ t, Instr.trapOut.opcode = .trap ∧ exec .trapOut State.reset = .next t := ⟨_, rfl, rfl⟩
theorem witness_reads_with_a_byte : (polling []).input = 0x61#8 :: [0x62#8] ∧ (polling []).hold = none := ⟨rfl, rfl⟩
theorem witness_BlockedReadWaitsForAByte : State.reset.input = [] ∧ State.reset.status = .alive := ⟨rfl, rfl⟩
theorem witness_strings :
    let s := vec 0x3000#16 0x0000#16 [(0, 0xFFFF#16)] [(0xFFFF#16, 0x6548#16)] 0
    (1 : Nat) < 65536 ∧ s.word (s.reg 0 + BitVec.ofNat 16 1) = 0x0000#16 ∧
      ∀ i < 1, s.word (s.reg 0 + BitVec.ofNat 16 i) ≠ 0x0000#16 := by decide

/-- A memory of n words from address k up, all 1. -/
def ones : Nat → Nat → Memory
  | 0, _ => []
  | n + 1, k => (k, 0x0001#16) :: ones n (k + 1)

theorem readKey_ones (n k a : Nat) (h : k ≤ a) (h' : a < k + n) : (ones n k).readKey a = 0x0001#16 := by
  induction n generalizing k with
  | zero => omega
  | succ n ih =>
    rw [ones, readKey_cons]
    split
    · rfl
    · exact ih (k + 1) (by omega) (by omega)

/-- A core with no zero word in memory. -/
def full : State := { State.reset with mem := ones 65536 0 }

theorem witness_EndlessStringNeverEnds : (∀ a : Word, full.word a ≠ 0x0000#16) ∧ full.status = .alive :=
  ⟨fun a => by rw [State.word, full, readKey_ones _ _ _ (Nat.zero_le _) (by omega)]; decide, rfl⟩

theorem witness_ReservedOpcodesRaiseDecodeError :
    ∃ t, exec .res State.reset = .next t ∧ t.fault = some (.decodeError 13#4) := ⟨_, rfl, rfl⟩
theorem witness_IllegalWordsAreExactlyTheFatalOnes :
    let s := vec 0x3000#16 0xF01F#16 [] [] 0
    ∃ t, s.status = .alive ∧ s.hold = none ∧ step s = .next t ∧ t.status = .faulted ∧
      (fetch s).1.toNat % 256 < 0x20 := ⟨_, rfl, rfl, rfl, by decide, by decide⟩
theorem witness_HostAbortEndsOnlyALivingRun :
    State.reset.status = .alive ∧ (raise (.decodeError 8#4) State.reset).status ≠ .alive := by decide
theorem witness_ExitCodeIsZeroExactlyForDead : (raise (.decodeError 8#4) State.reset).status = .faulted := rfl

end Sys2Proof.Tests
end

section
/-! PROOFS. 00_scope.md: the bits of a sign-extended and of a zero-extended field (R10). -/

namespace Sys2Proof.Machine

/-- R10 for a field of any width, the empty one included: there bit `n - 1` lies outside the field and reads as 0. -/
theorem getLsbD_sext16 {n : Nat} (f : BitVec n) {i : Nat} (hi : i < 16) :
    (sext16 f).getLsbD i = if i < n then f.getLsbD i else f.getLsbD (n - 1) := by
  rw [sext16, BitVec.getLsbD_signExtend, BitVec.msb_eq_getLsbD_last, decide_eq_true hi, Bool.true_and]

/-- A byte has no bit at 8 or above, so zero extension keeps every bit read; the word's own bound is never reached. -/
theorem getLsbD_zext16 (b : Byte) (i : Nat) : (zext16 b).getLsbD i = (decide (i < 8) && b.getLsbD i) := by
  rw [zext16, BitVec.getLsbD_setWidth]
  by_cases hi : i < 8
  · have hi16 : i < 16 := by omega
    simp only [hi, hi16]
  · have hb : b.getLsbD i = false := BitVec.getLsbD_of_ge b i (Nat.le_of_not_lt hi)
    simp only [hb, Bool.and_false]

/-- Settles O5: the bits of both extensions, each from its own rule, and R10's two worked values by evaluation. -/
theorem extensionOfFields : Obligations.ExtensionOfFields := by
  unfold Obligations.ExtensionOfFields
  refine ⟨?sext, getLsbD_zext16, ?allOnes, ?positive⟩
  case sext => exact fun _ _ f _ hi => getLsbD_sext16 f hi
  case allOnes => decide
  case positive => decide

end Sys2Proof.Machine
end

section
/-! PROOFS. 10_state.md: registers and memory at launch (R23, R36), `pc` after a step (R26) and the flags (R28). -/

namespace Sys2Proof.Machine

/-! ### The launch (R220, R225) -/

/-- A launch sets `pc` and memory; every other field has its value at reset. -/
theorem launchState_frame (img : Image) :
    launchState img = { State.reset with pc := img.origin, mem := (launchState img).mem } := by
  unfold launchState; rw [loadWords_frame]; rfl

theorem launchState_reg (img : Image) (r : Reg) : (launchState img).reg r = State.reset.reg r := by
  rw [launchState_frame]; rfl

theorem launchState_cond (img : Image) : (launchState img).cond = 0b000#3 := by
  rw [launchState_frame]; rfl

theorem launchState_word (img : Image) (b : Word) :
    (launchState img).word b = (loadWords img.origin img.words State.reset).word b := rfl

theorem reset_reg (r : Reg) : State.reset.reg r = 0x0000#16 := Vector.getElem_replicate r.isLt

theorem reset_word (a : Word) : State.reset.word a = 0x0000#16 := rfl

/-- The i-th address after the next one is the (i + 1)-th. -/
theorem add_one_add_ofNat (a : Word) (i : Nat) :
    a + 1#16 + BitVec.ofNat 16 i = a + BitVec.ofNat 16 (i + 1) := by
  rw [BitVec.ofNat_add, BitVec.add_assoc, BitVec.add_comm (BitVec.ofNat 16 i)]

/-- Fewer than 2^16 increments do not come back to the address they start from. -/
theorem ne_add_ofNat_succ (a : Word) {i : Nat} (hi : i + 1 < 65536) : a ≠ a + BitVec.ofNat 16 (i + 1) := by
  intro h
  have hz : BitVec.ofNat 16 (i + 1) = BitVec.ofNat 16 0 := BitVec.self_eq_add_right.1 h
  have hnat := congrArg BitVec.toNat hz
  rw [BitVec.toNat_ofNat, BitVec.toNat_ofNat] at hnat
  omega

/-- Loading leaves the words outside the image's addresses as they were. -/
theorem word_loadWords_outside {a b : Word} {ws : List Word}
    (hb : ∀ i < ws.length, b ≠ a + BitVec.ofNat 16 i) (s : State) : (loadWords a ws s).word b = s.word b := by
  induction ws generalizing a s with
  | nil => rfl
  | cons w ws ih =>
    have hhead : a ≠ b := fun e => hb 0 (Nat.succ_pos _) (by rw [e, BitVec.add_zero])
    have htail : ∀ i < ws.length, b ≠ a + 1#16 + BitVec.ofNat 16 i := fun i hi => by
      rw [add_one_add_ofNat]; exact hb (i + 1) (Nat.succ_lt_succ hi)
    rw [loadWords, ih htail, word_setWord_ne hhead]

/-- Loading puts word i at the i-th address; no later word of an image of at most 2^16 words overwrites it. -/
theorem word_loadWords_inside (a : Word) {ws : List Word} (hlen : ws.length ≤ 65536) {s : State} (hm : s.mem.wf)
    (i : Nat) (hi : i < ws.length) : (loadWords a ws s).word (a + BitVec.ofNat 16 i) = ws[i] := by
  induction ws generalizing a s i with
  | nil => exact absurd hi (Nat.not_lt_zero i)
  | cons w ws ih =>
    rw [List.length_cons] at hlen hi
    rw [loadWords]
    cases i with
    | zero =>
      have hlater : ∀ j < ws.length, a ≠ a + 1#16 + BitVec.ofNat 16 j := fun j hj => by
        rw [add_one_add_ofNat]; exact ne_add_ofNat_succ a (by omega)
      rw [BitVec.add_zero, word_loadWords_outside hlater, word_setWord_same a w hm]; rfl
    | succ i =>
      have hrest := ih (a + 1#16) (Nat.le_of_succ_le hlen) (wf_setWord a w hm) i (Nat.lt_of_succ_lt_succ hi)
      rwa [add_one_add_ofNat] at hrest

/-- Settles O6: a launch keeps the registers of reset, and its words are those of the image, each read after all are
loaded, over a memory of zeros. -/
theorem launchLoadsTheImage : Obligations.LaunchLoadsTheImage := by
  unfold Obligations.LaunchLoadsTheImage
  refine ⟨reset_reg, reset_word, fun img _ hfits => ⟨?registers, ?inside, ?outside⟩⟩
  case registers => exact fun r => (launchState_reg img r).trans (reset_reg r)
  case inside =>
    intro i hi
    rw [launchState_word]
    exact word_loadWords_inside img.origin (le_trans (Nat.le_add_left _ _) hfits) wf_nil i hi
  case outside =>
    intro a ha
    rw [launchState_word, word_loadWords_outside ha, reset_word]

/-! ### `pc` and the flags under the operations that instructions share -/

@[simp] theorem blockingRead_pc (r : ReadService) (s : State) : (blockingRead r s).pc = s.pc := by
  rw [blockingRead_frame]

@[simp] theorem blockingRead_cond (r : ReadService) (s : State) : (blockingRead r s).cond = s.cond := by
  rw [blockingRead_frame]

@[simp] theorem putString_pc (k : StringService) (s : State) : (putString k s).pc = s.pc := by
  rw [putString_frame]

@[simp] theorem putString_cond (k : StringService) (s : State) : (putString k s).cond = s.cond := by
  rw [putString_frame]

@[simp] theorem loadFrom_pc (dr : Reg) (a : Word) (s : State) : (loadFrom dr a s).pc = s.pc := by
  rw [loadFrom_eq, writeResult_pc, memRead_pc]

@[simp] theorem indirect_pc (off : BitVec 9) (s : State) : (indirect off s).2.pc = s.pc := memRead_pc _ s

@[simp] theorem indirect_cond (off : BitVec 9) (s : State) : (indirect off s).2.cond = s.cond := memRead_cond _ s

/-- No held service sets the flags. -/
@[simp] theorem resume_cond (d : Hold) (s : State) : (resume d s).cond = s.cond := by
  cases d with
  | read r => exact blockingRead_cond r s
  | string k a => simp only [resume]; split_ifs <;> rfl

/-- BR's condition is that the mask and the flags have a bit in common. -/
theorem branchTaken_iff (nzp : BitVec 3) (s : State) : branchTaken nzp s = true ↔ nzp &&& s.cond ≠ 0b000#3 :=
  bne_iff_ne

/-! ### `pc` after an instruction (R26) -/

/-- The target of an instruction depends on the registers, `pc` and the flags only. -/
theorem nextPc_congr {s t : State} (hx : t.x = s.x) (hpc : t.pc = s.pc) (hc : t.cond = s.cond) (i : Instr) :
    nextPc i t = nextPc i s := by
  simp only [nextPc, State.reg, hx, hpc, hc]

theorem execBr_pc {nzp : BitVec 3} {off : BitVec 9} {s t : State} (h : execBr nzp off s = .next t) :
    t.pc = nextPc (.br nzp off) s := by
  cases h
  by_cases hz : nzp &&& s.cond = 0b000#3
  · have hnot : ¬ branchTaken nzp s = true := fun hb => (branchTaken_iff nzp s).1 hb hz
    rw [if_neg hnot, nextPc, if_pos hz]
  · rw [if_pos ((branchTaken_iff nzp s).2 hz), nextPc, if_neg hz]; rfl

/-- R154: the base register is read after the link, so `JSRR R7` goes to the address it linked. -/
theorem execJsrr_pc {base : Reg} {s t : State} (h : execJsrr base s = .next t) :
    t.pc = nextPc (.jsrr base) s := by
  cases h
  simp only [nextPc, link, setPc_pc, reg_setReg, eq_comm]

/-- An instruction leaves `pc` at the target of R26, `pc` as incremented for all but BR, JMP and JSR. -/
theorem exec_pc {i : Instr} {s t : State} (h : exec i s = .next t) : t.pc = nextPc i s := by
  cases i with
  | br nzp off => exact execBr_pc h
  | jsrr base => exact execJsrr_pc h
  | jsr off | jmp base => cases h; rfl
  | addReg | addImm | andReg | andImm | not | lea => cases h; rfl
  | st | str | rti | res | trapOut | trapHalt | trapUndefined => cases h; rfl
  | ld | ldr => cases h; exact loadFrom_pc _ _ s
  | ldi dr off => cases h; exact (loadFrom_pc dr _ _).trans (indirect_pc off s)
  | sti sr off => cases h; exact indirect_pc off s
  | trapGetc | trapIn => cases h; exact blockingRead_pc _ _
  | trapPuts | trapPutsp => cases h; exact putString_pc _ s

/-- Settles O16: the step of an ALIVE core runs the fetched instruction on the fetched state, which has the registers
and flags of `s` and `pc` incremented. -/
theorem programCounterAfterAStep : Obligations.ProgramCounterAfterAStep := by
  unfold Obligations.ProgramCounterAfterAStep
  intro s t ha hh h
  rw [step_of_fetch ha hh] at h
  rw [exec_pc h]
  exact nextPc_congr (s := s.setPc (s.pc + 1#16)) (fetch_x s) (fetch_pc s) (fetch_cond s) _

/-! ### The flags after an instruction (R28, R30) -/

/-- A flag-setting instruction ends by writing a result into its destination. -/
theorem exec_eq_writeResult {i : Instr} {dr : Reg} {s t : State} (hd : flagDest i = some dr)
    (h : exec i s = .next t) : ∃ v m, t = writeResult dr v m := by
  cases i with
  | addReg | addImm | andReg | andImm | not | lea | ld | ldr | ldi => cases hd; cases h; exact ⟨_, _, rfl⟩
  | br | st | jsr | jsrr | str | rti | sti | jmp | res => cases hd
  | trapGetc | trapOut | trapPuts | trapIn | trapPutsp | trapHalt | trapUndefined => cases hd

/-- A flag-setting instruction leaves the flags of the word it wrote (R114). -/
theorem exec_cond_of_flagDest {i : Instr} {dr : Reg} {s t : State} (hd : flagDest i = some dr)
    (h : exec i s = .next t) : t.cond = flagsOf (t.reg dr) := by
  obtain ⟨v, m, rfl⟩ := exec_eq_writeResult hd h
  rw [writeResult_cond, reg_writeResult_same]

/-- An instruction without a flag destination leaves the flags alone (R30). -/
theorem exec_cond_of_flagDest_none {i : Instr} {s t : State} (hd : flagDest i = none)
    (h : exec i s = .next t) : t.cond = s.cond := by
  cases i with
  | addReg | addImm | andReg | andImm | not | lea | ld | ldr | ldi => cases hd
  | br nzp off => cases h; split_ifs <;> rfl
  | jsr | jsrr | jmp => cases h; rfl
  | st | str | rti | res | trapOut | trapHalt | trapUndefined => cases h; rfl
  | sti sr off => cases h; exact indirect_cond off s
  | trapGetc | trapIn => cases h; exact blockingRead_cond _ _
  | trapPuts | trapPutsp => cases h; exact putString_cond _ s

/-- Settles O20: a step that runs an instruction changes the flags as the instruction does; a held step and a stopped
core run none and change no flag. -/
theorem flagsAreNoneOrOne : Obligations.FlagsAreNoneOrOne := by
  unfold Obligations.FlagsAreNoneOrOne
  refine ⟨launchState_cond, fun s t h => ?_⟩
  rcases step_cases h with ⟨ha, hh, hexec⟩ | ⟨-, d, hh, rfl⟩ | ⟨hstopped, rfl⟩
  case inl =>
    cases hd : flagDest (decode (fetch s).1) with
    | some dr =>
      rw [if_pos ⟨ha, hh, rfl⟩, exec_cond_of_flagDest hd hexec]
      exact flagsOf_mem _
    | none =>
      rw [if_neg (by simp), exec_cond_of_flagDest_none hd hexec, fetch_cond]
  case inr.inl => rw [if_neg (by simp [hh]), resume_cond]
  case inr.inr => rw [if_neg (fun hc => hstopped hc.1)]

end Sys2Proof.Machine
end

section
/-! PROOFS. 30_encoding.md: a word decodes by the fields of its format alone (R86). -/

namespace Sys2Proof

/-! ### Fields under a change of bits outside them (R82) -/

section
variable {w m mask : Word} (hm : m &&& mask = m)
include hm

/-- A change within a mask does not reach a field the mask has no bit of. -/
theorem extractLsb'_xor_of_mask (start len : Nat) (hfield : mask.extractLsb' start len = 0#len) :
    (w ^^^ m).extractLsb' start len = w.extractLsb' start len := by
  have hm0 : m.extractLsb' start len = 0#len := by
    rw [← hm, BitVec.extractLsb'_and, hfield, BitVec.and_zero]
  rw [BitVec.extractLsb'_xor, hm0, BitVec.xor_zero]

/-- A change within a mask does not reach a bit the mask does not have. -/
theorem getLsbD_xor_of_mask (i : Nat) (hbit : mask.getLsbD i = false) :
    (w ^^^ m).getLsbD i = w.getLsbD i := by
  have hm0 : m.getLsbD i = false := by rw [← hm, BitVec.getLsbD_and, hbit, Bool.and_false]
  rw [BitVec.getLsbD_xor, hm0, Bool.xor_false]

theorem fieldOpcode_xor_of_mask (hfield : mask.extractLsb' 12 4 = 0#4) : fieldOpcode (w ^^^ m) = fieldOpcode w :=
  extractLsb'_xor_of_mask hm 12 4 hfield

theorem fieldDR_xor_of_mask (hfield : mask.extractLsb' 9 3 = 0#3) : fieldDR (w ^^^ m) = fieldDR w :=
  congrArg BitVec.toFin (extractLsb'_xor_of_mask hm 9 3 hfield)

theorem fieldSR1_xor_of_mask (hfield : mask.extractLsb' 6 3 = 0#3) : fieldSR1 (w ^^^ m) = fieldSR1 w :=
  congrArg BitVec.toFin (extractLsb'_xor_of_mask hm 6 3 hfield)

theorem fieldSR2_xor_of_mask (hfield : mask.extractLsb' 0 3 = 0#3) : fieldSR2 (w ^^^ m) = fieldSR2 w :=
  congrArg BitVec.toFin (extractLsb'_xor_of_mask hm 0 3 hfield)

theorem fieldTrapvect8_xor_of_mask (hfield : mask.extractLsb' 0 8 = 0#8) :
    fieldTrapvect8 (w ^^^ m) = fieldTrapvect8 w :=
  extractLsb'_xor_of_mask hm 0 8 hfield

theorem flagImm_xor_of_mask (hbit : mask.getLsbD 5 = false) : flagImm (w ^^^ m) = flagImm w :=
  getLsbD_xor_of_mask hm 5 hbit

theorem flagRel_xor_of_mask (hbit : mask.getLsbD 11 = false) : flagRel (w ^^^ m) = flagRel w :=
  getLsbD_xor_of_mask hm 11 hbit

end

/-! ### What the formats ignore (R86) -/

/-- No format ignores a bit of the opcode. -/
theorem ignoredBits_opcode (i : Instr) : (Machine.ignoredBits i).extractLsb' 12 4 = 0#4 := by
  cases i <;> simp only [Machine.ignoredBits] <;> decide

/-- TRAP ignores the same four bits whatever the vector. -/
theorem ignoredBits_decodeTrap (v : BitVec 8) : Machine.ignoredBits (decodeTrap v) = 0x0F00#16 := by
  unfold decodeTrap; split_ifs <;> rfl

/-- A format whose fields cover every bit leaves nothing to change. -/
theorem decode_xor_of_ignoredBits_zero {w m : Word} (h0 : Machine.ignoredBits (decode w) = 0#16)
    (hm : m &&& Machine.ignoredBits (decode w) = m) : decode (w ^^^ m) = decode w := by
  have hm0 : m = 0#16 := by rw [← hm, h0, BitVec.and_zero]
  rw [hm0, BitVec.xor_zero]

/-- Settles O3: the change keeps the opcode, and under each opcode the flag of the format and the fields it has. -/
theorem ignoredBitsDoNotMatter : Obligations.IgnoredBitsDoNotMatter := by
  unfold Obligations.IgnoredBitsDoNotMatter
  intro w m hm
  have hop : fieldOpcode (w ^^^ m) = fieldOpcode w := fieldOpcode_xor_of_mask hm (ignoredBits_opcode _)
  cases h : opcodeOf (fieldOpcode w) with
  | br | ld | st | ldr | str | ldi | sti | lea =>
    exact decode_xor_of_ignoredBits_zero (by simp only [decode, h, Machine.ignoredBits]) hm
  | rti | res => simp only [decode, hop, h]
  | add | and =>
    by_cases hi : flagImm w = true
    · exact decode_xor_of_ignoredBits_zero (by simp only [decode, h, if_pos hi, Machine.ignoredBits]) hm
    · have hmask : m &&& 0x0018#16 = m := by
        simpa only [decode, h, if_neg hi, Machine.ignoredBits] using hm
      simp only [decode, hop, h, flagImm_xor_of_mask hmask rfl, fieldDR_xor_of_mask hmask rfl,
        fieldSR1_xor_of_mask hmask rfl, fieldSR2_xor_of_mask hmask rfl, if_neg hi]
  | jsr =>
    by_cases hr : flagRel w = true
    · exact decode_xor_of_ignoredBits_zero (by simp only [decode, h, if_pos hr, Machine.ignoredBits]) hm
    · have hmask : m &&& 0x063F#16 = m := by
        simpa only [decode, h, if_neg hr, Machine.ignoredBits] using hm
      simp only [decode, hop, h, flagRel_xor_of_mask hmask rfl, fieldSR1_xor_of_mask hmask rfl, if_neg hr]
  | not =>
    have hmask : m &&& 0x003F#16 = m := by simpa only [decode, h, Machine.ignoredBits] using hm
    simp only [decode, hop, h, fieldDR_xor_of_mask hmask rfl, fieldSR1_xor_of_mask hmask rfl]
  | jmp =>
    have hmask : m &&& 0x0E3F#16 = m := by simpa only [decode, h, Machine.ignoredBits] using hm
    simp only [decode, hop, h, fieldSR1_xor_of_mask hmask rfl]
  | trap =>
    have hmask : m &&& 0x0F00#16 = m := by simpa only [decode, h, ignoredBits_decodeTrap] using hm
    simp only [decode, hop, h, fieldTrapvect8_xor_of_mask hmask rfl]

end Sys2Proof
end

section
/-! PROOFS. 40_fetch_execute_loop.md: the flags after an instruction (R114), and the step as fetch and `exec` (R111). -/

namespace Sys2Proof.Machine

/-! ### The flags of a word by its sign (R114) -/

theorem flagsOf_of_toInt_eq_zero {v : Word} (h : v.toInt = 0) : flagsOf v = flZero :=
  if_pos (BitVec.eq_of_toInt_eq h)

/-- Bit 15, which R114 tests, is the sign of the word. -/
theorem getLsbD_fifteen_iff_toInt_neg (v : Word) : v.getLsbD 15 = true ↔ v.toInt < 0 := by
  have hmsb : v.msb = v.getLsbD 15 := v.msb_eq_getLsbD_last
  rw [← hmsb, BitVec.msb_eq_toInt, decide_eq_true_iff]

theorem ne_zero_of_toInt_ne_zero {v : Word} (h : v.toInt ≠ 0) : v ≠ 0x0000#16 :=
  fun hv => h (congrArg BitVec.toInt hv)

theorem flagsOf_of_toInt_neg {v : Word} (h : v.toInt < 0) : flagsOf v = flNeg := by
  rw [flagsOf, if_neg (ne_zero_of_toInt_ne_zero (ne_of_lt h)), if_pos ((getLsbD_fifteen_iff_toInt_neg v).2 h)]

theorem flagsOf_of_toInt_pos {v : Word} (h : v.toInt > 0) : flagsOf v = flPos := by
  rw [flagsOf, if_neg (ne_zero_of_toInt_ne_zero (ne_of_gt h)),
    if_neg (mt (getLsbD_fifteen_iff_toInt_neg v).1 (not_lt_of_gt h))]

/-- Settles O18: the seven setters leave the flags of the word in their destination, which is R114's case split on
its sign; the others leave the flags alone. -/
theorem flagsFollowTheWrittenWord : Obligations.FlagsFollowTheWrittenWord := by
  unfold Obligations.FlagsFollowTheWrittenWord
  intro i s t h
  cases hd : flagDest i with
  | none => exact exec_cond_of_flagDest_none hd h
  | some dr =>
    have hcond : t.cond = flagsOf (t.reg dr) := exec_cond_of_flagDest hd h
    exact ⟨fun hz => hcond.trans (flagsOf_of_toInt_eq_zero hz), fun hn => hcond.trans (flagsOf_of_toInt_neg hn),
      fun hp => hcond.trans (flagsOf_of_toInt_pos hp)⟩

/-! ### What a read does to memory and input (R50, R51) -/

theorem kbsrAddr_ne_kbdrAddr : kbsrAddr ≠ kbdrAddr := by decide

/-- A poll has the effect R51 states, each of its three outcomes. -/
theorem pollEffect_keyboardPoll {s : State} (hm : s.mem.wf) : PollEffect s (keyboardPoll s) := by
  unfold PollEffect
  cases hin : s.input with
  | nil =>
    rw [keyboardPoll_nil hin]
    exact ⟨⟨rfl, rfl, rfl⟩, word_setWord_same _ _ hm, fun a ha => word_setWord_ne ha.symm _ _⟩
  | cons c rest =>
    cases hans : nextAnswer s with
    | false =>
      rw [keyboardPoll_unavailable hin hans]
      exact ⟨⟨rfl, rfl⟩, hin, word_setWord_same _ _ hm, fun a ha => word_setWord_ne ha.symm _ _⟩
    | true =>
      rw [keyboardPoll_available hin hans]
      have hm' : (withInput rest (afterDraw s)).mem.wf := hm
      refine ⟨⟨rfl, rfl⟩, rfl, ?status, ?data, ?others⟩
      case status => rw [word_setWord_ne kbsrAddr_ne_kbdrAddr.symm, word_setWord_same _ _ hm']
      case data => exact word_setWord_same _ _ (wf_setWord _ _ hm')
      case others =>
        intro a hsr hdr
        rw [word_setWord_ne hdr.symm, word_setWord_ne hsr.symm]
        rfl

/-- `MemRead` has the effect R50 states: a poll at `KBSR_ADDR`, none elsewhere. -/
theorem readEffect_memRead (a : Word) {s : State} (hm : s.mem.wf) : ReadEffect a s (memRead a s).2 := by
  unfold ReadEffect
  split
  · next ha => subst ha; rw [memRead_kbsr]; exact pollEffect_keyboardPoll hm
  · next ha => rw [memRead_of_ne ha]; exact ⟨fun _ => rfl, rfl, rfl, rfl⟩

/-! ### The fetch (R111) -/

/-- The effect of a read does not mention `pc`, so the increment after the read keeps it. -/
theorem readEffect_setPc {a : Word} {s t : State} (h : ReadEffect a s t) (v : Word) : ReadEffect a s (t.setPc v) := h

theorem readEffect_fetch {s : State} (hm : s.mem.wf) : ReadEffect s.pc s (fetch s).2 := by
  rw [fetch_eq]; exact readEffect_setPc (readEffect_memRead s.pc hm) _

/-- The word fetched is the cell at the old `pc` as the fetch leaves it. -/
theorem fetch_fst (s : State) : (fetch s).1 = (fetch s).2.word s.pc := by
  rw [fetch_eq, word_setPc, memRead_fst]

theorem fetch_sameControl (s : State) : SameControl s (fetch s).2 := ⟨fetch_status s, fetch_fault s, fetch_hold s⟩

/-- Settles O10: the state between fetch and execution is the one `fetch` leaves. -/
theorem stepRunsTheDecodedInstruction : Obligations.StepRunsTheDecodedInstruction := by
  unfold Obligations.StepRunsTheDecodedInstruction
  intro s hm ha hh
  have hstep : step s = exec (decode ((fetch s).2.word s.pc)) (fetch s).2 := by
    rw [step_of_fetch ha hh, fetch_fst]
  exact ⟨(fetch s).2, readEffect_fetch hm, fetch_reg s, fetch_pc s, fetch_cond s, fetch_output s, fetch_sameControl s,
    hstep⟩

end Sys2Proof.Machine
end

section
/-! PROOFS. 41_arithmetic_logic.md: ADD, AND and NOT end by writing one word, computed from the old registers, into
`DR` (R120 to R122). -/

namespace Sys2Proof.Machine

/-! ### What writing a result leaves unchanged (R114) -/

theorem sameRegsExcept_writeResult (dr : Reg) (v : Word) (s : State) :
    SameRegsExcept [dr] s (writeResult dr v s) := by
  intro r hr
  have hne : dr ≠ r := fun h => hr (List.mem_singleton.2 h.symm)
  rw [reg_writeResult, if_neg hne]

/-- Apart from `DR`, a result changes the flags alone, which are those of the word now in `DR`. -/
theorem writeResult_frame (dr : Reg) (v : Word) (s : State) :
    (writeResult dr v s).cond = flagsOf ((writeResult dr v s).reg dr) ∧ SameRegsExcept [dr] s (writeResult dr v s) ∧
      (writeResult dr v s).pc = s.pc ∧ SameMemory s (writeResult dr v s) ∧ SameConsole s (writeResult dr v s) ∧
      SameControl s (writeResult dr v s) := by
  refine ⟨?flags, sameRegsExcept_writeResult dr v s, writeResult_pc dr v s, word_writeResult dr v s, ?console,
    ?control⟩
  case flags => rw [writeResult_cond, reg_writeResult_same]
  case console =>
    exact ⟨⟨writeResult_input dr v s, writeResult_availability dr v s, writeResult_draws dr v s⟩,
      writeResult_output dr v s⟩
  case control => exact ⟨writeResult_status dr v s, writeResult_fault dr v s, writeResult_hold dr v s⟩

/-! ### The word each instruction writes (R120, R121, R122) -/

theorem exec_addReg (dr sr1 sr2 : Reg) (s : State) :
    exec (.addReg dr sr1 sr2) s = .next (writeResult dr (s.reg sr1 + s.reg sr2) s) := rfl

theorem exec_addImm (dr sr1 : Reg) (imm5 : BitVec 5) (s : State) :
    exec (.addImm dr sr1 imm5) s = .next (writeResult dr (s.reg sr1 + sext16 imm5) s) := rfl

theorem exec_andReg (dr sr1 sr2 : Reg) (s : State) :
    exec (.andReg dr sr1 sr2) s = .next (writeResult dr (s.reg sr1 &&& s.reg sr2) s) := rfl

theorem exec_andImm (dr sr1 : Reg) (imm5 : BitVec 5) (s : State) :
    exec (.andImm dr sr1 imm5) s = .next (writeResult dr (s.reg sr1 &&& sext16 imm5) s) := rfl

theorem exec_not (dr sr : Reg) (s : State) :
    exec (.not dr sr) s = .next (writeResult dr (~~~ s.reg sr) s) := rfl

/-! ### The statements -/

/-- Settles O26: the word written is a 16-bit sum, which as a number is the sum modulo 2^16, and with the extended
immediate the wrapped sum of the signed values. -/
theorem addWritesTheSum : Obligations.AddWritesTheSum := by
  unfold Obligations.AddWritesTheSum
  intro dr sr1 sr2 imm5 s
  constructor
  · refine ⟨_, exec_addReg dr sr1 sr2 s, ?_, writeResult_frame dr _ s⟩
    rw [reg_writeResult_same]
    exact BitVec.toNat_add (s.reg sr1) (s.reg sr2)
  · refine ⟨_, exec_addImm dr sr1 imm5 s, ?_, writeResult_frame dr _ s⟩
    rw [reg_writeResult_same]
    exact (ofInt_add_toInt (by decide) (s.reg sr1) imm5).symm

/-- Settles O27: a bit of the word written is the conjunction of the operands' bits, and a bit of the extended
immediate is R10's. -/
theorem andWritesTheConjunction : Obligations.AndWritesTheConjunction := by
  unfold Obligations.AndWritesTheConjunction
  intro dr sr1 sr2 imm5 s
  constructor
  · refine ⟨_, exec_andReg dr sr1 sr2 s, fun i => ?_, writeResult_frame dr _ s⟩
    rw [reg_writeResult_same, BitVec.getLsbD_and]
  · refine ⟨_, exec_andImm dr sr1 imm5 s, fun i hi => ?_, writeResult_frame dr _ s⟩
    rw [reg_writeResult_same, BitVec.getLsbD_and, getLsbD_sext16 imm5 hi]

/-- Settles O28: each bit inside the word's width is inverted. -/
theorem notWritesTheComplement : Obligations.NotWritesTheComplement := by
  unfold Obligations.NotWritesTheComplement
  intro dr sr s
  refine ⟨_, exec_not dr sr s, fun i hi => ?_, writeResult_frame dr _ s⟩
  rw [reg_writeResult_same, BitVec.getLsbD_not, decide_eq_true hi, Bool.true_and]

end Sys2Proof.Machine
end

section
/-! PROOFS. 42_load_store.md: a load is a `MemRead` and a result, a store a plain write of one word; the indirect forms
read their pointer first (R130 to R142). -/

namespace Sys2Proof.Machine

/-! ### Addresses (R144) -/

theorem ofInt_pcRelative (off : BitVec 9) (s : State) :
    BitVec.ofInt 16 (s.pc.toInt + off.toInt) = pcRelative off s := ofInt_add_toInt (by decide) s.pc off

theorem ofInt_basePlusOffset (base : Reg) (off : BitVec 6) (s : State) :
    BitVec.ofInt 16 ((s.reg base).toInt + off.toInt) = basePlusOffset base off s :=
  ofInt_add_toInt (by decide) (s.reg base) off

/-! ### Frames along two operations -/

theorem SameRegsExcept.of_reg_eq {ds : List Reg} {s m t : State} (hm : ∀ r, m.reg r = s.reg r)
    (ht : SameRegsExcept ds m t) : SameRegsExcept ds s t := fun r hr => (ht r hr).trans (hm r)

theorem SameControl.trans {s m t : State} (hm : SameControl s m) (ht : SameControl m t) : SameControl s t := by
  obtain ⟨hstatus, hfault, hhold⟩ := hm
  obtain ⟨hstatus', hfault', hhold'⟩ := ht
  exact ⟨hstatus'.trans hstatus, hfault'.trans hfault, hhold'.trans hhold⟩

theorem memRead_sameControl (a : Word) (s : State) : SameControl s (memRead a s).2 :=
  ⟨memRead_status a s, memRead_fault a s, memRead_hold a s⟩

/-! ### What a load does (R50, R114) -/

/-- The effect of a read does not mention registers and flags, so the result written after the read keeps it. -/
theorem readEffect_writeResult {a : Word} {s t : State} (h : ReadEffect a s t) (dr : Reg) (v : Word) :
    ReadEffect a s (writeResult dr v t) := h

theorem readEffect_loadFrom (dr : Reg) (a : Word) {s : State} (hm : s.mem.wf) :
    ReadEffect a s (loadFrom dr a s) := readEffect_writeResult (readEffect_memRead a hm) dr _

/-- A load leaves in `DR` the cell as its read, with the poll, leaves it. -/
theorem reg_loadFrom_same (dr : Reg) (a : Word) (s : State) :
    (loadFrom dr a s).reg dr = (loadFrom dr a s).word a := by
  rw [loadFrom_eq, reg_writeResult_same, word_writeResult, memRead_fst]

/-- Apart from its read and `DR`, a load changes the flags alone, which are those of the word now in `DR`. -/
theorem loadFrom_frame (dr : Reg) (a : Word) (s : State) :
    (loadFrom dr a s).cond = flagsOf ((loadFrom dr a s).reg dr) ∧ SameRegsExcept [dr] s (loadFrom dr a s) ∧
      (loadFrom dr a s).pc = s.pc ∧ (loadFrom dr a s).output = s.output ∧ SameControl s (loadFrom dr a s) := by
  obtain ⟨hcond, hregs, -, -, ⟨-, houtput⟩, hcontrol⟩ := writeResult_frame dr (memRead a s).1 (memRead a s).2
  exact ⟨hcond, hregs.of_reg_eq (memRead_reg a s), loadFrom_pc dr a s, houtput.trans (memRead_output a s),
    (memRead_sameControl a s).trans hcontrol⟩

/-- What LD and LDR have in common, for any address. -/
theorem loadFrom_effect (dr : Reg) (a : Word) {s : State} (hm : s.mem.wf) :
    ReadEffect a s (loadFrom dr a s) ∧ (loadFrom dr a s).reg dr = (loadFrom dr a s).word a ∧
      (loadFrom dr a s).cond = flagsOf ((loadFrom dr a s).word a) ∧ SameRegsExcept [dr] s (loadFrom dr a s) ∧
      (loadFrom dr a s).pc = s.pc ∧ (loadFrom dr a s).output = s.output ∧ SameControl s (loadFrom dr a s) := by
  obtain ⟨hcond, hframe⟩ := loadFrom_frame dr a s
  have hword := reg_loadFrom_same dr a s
  exact ⟨readEffect_loadFrom dr a hm, hword, hword ▸ hcond, hframe⟩

/-! ### What a store does -/

/-- A store changes the one word, with no exception for the keyboard's addresses. -/
theorem memWrite_effect (a v : Word) {s : State} (hm : s.mem.wf) :
    (memWrite a v s).word a = v ∧ SameMemoryExcept a s (memWrite a v s) ∧ SameRegsExcept [] s (memWrite a v s) ∧
      (memWrite a v s).pc = s.pc ∧ (memWrite a v s).cond = s.cond ∧ SameConsole s (memWrite a v s) ∧
      SameControl s (memWrite a v s) := by
  refine ⟨word_setWord_same a v hm, fun b hb => word_setWord_ne hb.symm v s, fun r _ => reg_memWrite a v s r,
    memWrite_pc a v s, memWrite_cond a v s, ?console, ?control⟩
  case console =>
    exact ⟨⟨memWrite_input a v s, memWrite_availability a v s, memWrite_draws a v s⟩, memWrite_output a v s⟩
  case control => exact ⟨memWrite_status a v s, memWrite_fault a v s, memWrite_hold a v s⟩

/-! ### The operation of each instruction (R130 to R142) -/

theorem exec_ld (dr : Reg) (off : BitVec 9) (s : State) :
    exec (.ld dr off) s = .next (loadFrom dr (pcRelative off s) s) := rfl

theorem exec_ldr (dr base : Reg) (off : BitVec 6) (s : State) :
    exec (.ldr dr base off) s = .next (loadFrom dr (basePlusOffset base off s) s) := rfl

theorem exec_st (sr : Reg) (off : BitVec 9) (s : State) :
    exec (.st sr off) s = .next (memWrite (pcRelative off s) (s.reg sr) s) := rfl

theorem exec_str (sr base : Reg) (off : BitVec 6) (s : State) :
    exec (.str sr base off) s = .next (memWrite (basePlusOffset base off s) (s.reg sr) s) := rfl

theorem exec_lea (dr : Reg) (off : BitVec 9) (s : State) :
    exec (.lea dr off) s = .next (writeResult dr (pcRelative off s) s) := rfl

/-- The second address is the pointer's cell as the first read leaves it. -/
theorem exec_ldi (dr : Reg) (off : BitVec 9) (s : State) :
    exec (.ldi dr off) s =
      .next (loadFrom dr ((indirect off s).2.word (pcRelative off s)) (indirect off s).2) := rfl

/-- The address is the pointer's cell as its read leaves it; that read changes no register, `SR` among them. -/
theorem exec_sti (sr : Reg) (off : BitVec 9) (s : State) :
    exec (.sti sr off) s =
      .next (memWrite ((indirect off s).2.word (pcRelative off s)) (s.reg sr) (indirect off s).2) := by
  rw [← memRead_reg (pcRelative off s) s sr]; rfl

/-! ### The statements -/

/-- Settles O29: LD is a load from the PC-relative address. -/
theorem ldLoadsPcRelative : Obligations.LdLoadsPcRelative := by
  unfold Obligations.LdLoadsPcRelative
  intro dr off s hm
  rw [ofInt_pcRelative]
  exact ⟨_, exec_ld dr off s, loadFrom_effect dr _ hm⟩

/-- Settles O30: LDR is a load from the address computed before `DR` is written, so `DR = BaseR` needs no case. -/
theorem ldrLoadsBasePlusOffset : Obligations.LdrLoadsBasePlusOffset := by
  unfold Obligations.LdrLoadsBasePlusOffset
  intro dr base off s hm
  rw [ofInt_basePlusOffset]
  exact ⟨_, exec_ldr dr base off s, loadFrom_effect dr _ hm⟩

/-- Settles O31: the read of the pointer leaves the canonical memory the load needs, and what the load leaves alone
the read left alone too. -/
theorem ldiLoadsThroughAPointer : Obligations.LdiLoadsThroughAPointer := by
  unfold Obligations.LdiLoadsThroughAPointer
  intro dr off s hm
  rw [ofInt_pcRelative]
  have hwf : (indirect off s).2.mem.wf := wf_memRead _ hm
  obtain ⟨hcond, hregs, hpc, houtput, hcontrol⟩ :=
    loadFrom_frame dr ((indirect off s).2.word (pcRelative off s)) (indirect off s).2
  exact ⟨_, _, exec_ldi dr off s, readEffect_memRead _ hm, readEffect_loadFrom dr _ hwf, reg_loadFrom_same dr _ _,
    hcond, hregs.of_reg_eq (memRead_reg _ s), hpc.trans (indirect_pc off s), houtput.trans (memRead_output _ s),
    (memRead_sameControl _ s).trans hcontrol⟩

/-- Settles O32: ST is a store at the PC-relative address. -/
theorem stStoresPcRelative : Obligations.StStoresPcRelative := by
  unfold Obligations.StStoresPcRelative
  intro sr off s hm
  rw [ofInt_pcRelative]
  exact ⟨_, exec_st sr off s, memWrite_effect _ _ hm⟩

/-- Settles O33: STR is a store at the base + offset address. -/
theorem strStoresBasePlusOffset : Obligations.StrStoresBasePlusOffset := by
  unfold Obligations.StrStoresBasePlusOffset
  intro sr base off s hm
  rw [ofInt_basePlusOffset]
  exact ⟨_, exec_str sr base off s, memWrite_effect _ _ hm⟩

/-- Settles O34: the store acts on the state the pointer's read leaves, which differs from `s` by a poll at most. -/
theorem stiStoresThroughAPointer : Obligations.StiStoresThroughAPointer := by
  unfold Obligations.StiStoresThroughAPointer
  intro sr off s hm
  rw [ofInt_pcRelative]
  have hwf : (indirect off s).2.mem.wf := wf_memRead _ hm
  obtain ⟨hword, hmem, hregs, hpc, hcond, ⟨hinput, houtput⟩, hcontrol⟩ :=
    memWrite_effect ((indirect off s).2.word (pcRelative off s)) (s.reg sr) hwf
  exact ⟨_, _, exec_sti sr off s, readEffect_memRead _ hm, hword, hmem, hinput, hregs.of_reg_eq (memRead_reg _ s),
    hpc.trans (indirect_pc off s), hcond.trans (indirect_cond off s), houtput.trans (memRead_output _ s),
    (memRead_sameControl _ s).trans hcontrol⟩

/-- Settles O35: LEA writes the address as a result, and a result leaves memory and console alone. -/
theorem leaWritesTheAddress : Obligations.LeaWritesTheAddress := by
  unfold Obligations.LeaWritesTheAddress
  intro dr off s
  rw [ofInt_pcRelative]
  exact ⟨_, exec_lea dr off s, reg_writeResult_same dr _ s, writeResult_frame dr _ s⟩

end Sys2Proof.Machine
end

section
/-! PROOFS. 43_control_transfer.md: BR, JSR and JMP write `pc`, JSR writes R7 before it, and nothing else changes
(R150 to R156). -/

namespace Sys2Proof.Machine

/-! ### What writing `pc` and linking leave unchanged -/

theorem setPc_frame (v : Word) (s : State) :
    SameRegsExcept [] s (s.setPc v) ∧ (s.setPc v).cond = s.cond ∧ SameMemory s (s.setPc v) ∧
      SameConsole s (s.setPc v) ∧ SameControl s (s.setPc v) := by
  refine ⟨fun r _ => reg_setPc v s r, setPc_cond v s, word_setPc v s, ?console, ?control⟩
  case console => exact ⟨⟨setPc_input v s, setPc_availability v s, setPc_draws v s⟩, setPc_output v s⟩
  case control => exact ⟨setPc_status v s, setPc_fault v s, setPc_hold v s⟩

/-- What the two forms of JSR have in common, for any target. -/
theorem setPc_link_frame (v : Word) (s : State) :
    SameRegsExcept [7] s ((link s).setPc v) ∧ ((link s).setPc v).cond = s.cond ∧ SameMemory s ((link s).setPc v) ∧
      SameConsole s ((link s).setPc v) ∧ SameControl s ((link s).setPc v) := by
  obtain ⟨-, hcond, hmem, hconsole, hcontrol⟩ := setPc_frame v (link s)
  refine ⟨fun r hr => ?_, hcond, hmem, hconsole, hcontrol⟩
  have hne : 7 ≠ r := fun h => hr (List.mem_singleton.2 h.symm)
  exact reg_setReg_ne hne s.pc s

theorem reg_seven_link (s : State) : (link s).reg 7 = s.pc := reg_setReg_same 7 s.pc s

/-! ### The target of each instruction (R150, R153, R156) -/

/-- An untaken branch writes `pc` back as it is. -/
theorem exec_br (nzp : BitVec 3) (off : BitVec 9) (s : State) :
    exec (.br nzp off) s = .next (s.setPc (if branchTaken nzp s then pcRelative off s else s.pc)) :=
  congrArg Host.Outcome.next (apply_ite (State.setPc · s) _ _ _).symm

theorem exec_jsr (off : BitVec 11) (s : State) :
    exec (.jsr off) s = .next ((link s).setPc (pcRelative off s)) := rfl

/-- The base register is read after the link. -/
theorem exec_jsrr (base : Reg) (s : State) :
    exec (.jsrr base) s = .next ((link s).setPc ((link s).reg base)) := rfl

theorem exec_jmp (base : Reg) (s : State) : exec (.jmp base) s = .next (s.setPc (s.reg base)) := rfl

/-! ### The test of BR, flag by flag (R150) -/

theorem branchTaken_of_common_flag {nzp : BitVec 3} {s : State} {i : Nat} (hmask : nzp.getLsbD i = true)
    (hflag : s.cond.getLsbD i = true) : branchTaken nzp s = true := by
  refine (branchTaken_iff nzp s).2 fun hz => ?_
  have hbit : (nzp &&& s.cond).getLsbD i = true := by rw [BitVec.getLsbD_and, hmask, hflag, Bool.and_self]
  rw [hz, BitVec.getLsbD_zero] at hbit
  exact Bool.false_ne_true hbit

theorem branchTaken_of_no_common_flag {nzp : BitVec 3} {s : State}
    (h : ∀ i < 3, nzp.getLsbD i = true → s.cond.getLsbD i = false) : branchTaken nzp s = false := by
  have hz : nzp &&& s.cond = 0b000#3 := by
    refine BitVec.eq_of_getLsbD_eq fun i hi => ?_
    rw [BitVec.getLsbD_and, BitVec.getLsbD_zero]
    cases hmask : nzp.getLsbD i with
    | false => exact Bool.false_and _
    | true => rw [h i hi hmask, Bool.and_false]
  exact Bool.eq_false_iff.2 fun htaken => (branchTaken_iff nzp s).1 htaken hz

/-! ### A fetch that does not poll (R111, R56) -/

theorem fetch_fst_of_ne {s : State} (h : s.pc ≠ kbsrAddr) : (fetch s).1 = s.word s.pc := by
  rw [fetch_eq, memRead_of_ne h]

/-! ### The statements -/

/-- Settles O39: BR writes `pc` alone, with the target or with `pc` as it is; a flag in common decides which. -/
theorem branchTestsTheFlags : Obligations.BranchTestsTheFlags := by
  unfold Obligations.BranchTestsTheFlags
  intro nzp off s
  rw [ofInt_pcRelative]
  refine ⟨_, exec_br nzp off s, ?taken, ?untaken, setPc_frame _ s⟩
  case taken =>
    rintro ⟨i, -, hmask, hflag⟩
    rw [setPc_pc, if_pos (branchTaken_of_common_flag hmask hflag)]
  case untaken =>
    intro h
    rw [setPc_pc, branchTaken_of_no_common_flag h]
    exact if_neg Bool.false_ne_true

/-- Settles O40: both forms link and then write `pc`, which leaves R7 and, in the register form, the base as linked. -/
theorem jsrLinksAndJumps : Obligations.JsrLinksAndJumps := by
  unfold Obligations.JsrLinksAndJumps
  intro off base s
  constructor
  · have htarget : pcRelative off s = BitVec.ofInt 16 (s.pc.toInt + off.toInt) :=
      (ofInt_add_toInt (by decide) s.pc off).symm
    exact ⟨_, exec_jsr off s, reg_seven_link s, htarget, setPc_link_frame _ s⟩
  · exact ⟨_, exec_jsrr base s, reg_seven_link s, rfl, setPc_link_frame _ s⟩

/-- Settles O41: the word is `JSRR R7`, which links `pc` as the fetch incremented it and then jumps to R7. -/
theorem jsrrThroughR7FallsThrough : Obligations.JsrrThroughR7FallsThrough := by
  unfold Obligations.JsrrThroughR7FallsThrough
  intro s halive hhold hpc hword
  have hdecode : decode (fetch s).1 = .jsrr 7 := by rw [fetch_fst_of_ne hpc, hword]; decide
  have hlink : (link (fetch s).2).reg 7 = s.pc + 1#16 := (reg_seven_link _).trans (fetch_pc s)
  have hstep : step s = .next ((link (fetch s).2).setPc ((link (fetch s).2).reg 7)) := by
    rw [step_of_fetch halive hhold, hdecode, exec_jsrr]
  exact ⟨_, hstep, hlink, hlink⟩

/-- Settles O42: JMP writes `pc` alone. -/
theorem jmpGoesToTheRegister : Obligations.JmpGoesToTheRegister := by
  unfold Obligations.JmpGoesToTheRegister
  intro base s
  exact ⟨_, exec_jmp base s, setPc_pc _ s, setPc_frame _ s⟩

end Sys2Proof.Machine
end

section
/-! PROOFS. 44_trap_services.md: OUT adds to the console output and changes nothing else (R164). -/

namespace Sys2Proof.Machine

/-! ### What writing to the console leaves unchanged (R43) -/

theorem out_frame (bs : List Byte) (s : State) :
    SameRegsExcept [] s (out bs s) ∧ (out bs s).pc = s.pc ∧ (out bs s).cond = s.cond ∧ SameMemory s (out bs s) ∧
      SameInput s (out bs s) ∧ SameControl s (out bs s) := by
  refine ⟨fun r _ => reg_out bs s r, out_pc bs s, out_cond bs s, word_out bs s, ?input, ?control⟩
  case input => exact ⟨out_input bs s, out_availability bs s, out_draws bs s⟩
  case control => exact ⟨out_status bs s, out_fault bs s, out_hold bs s⟩

/-! ### The byte OUT writes (R164) -/

theorem toNat_lowByte (w : Word) : (lowByte w).toNat = w.toNat % 256 := by
  rw [lowByte_eq, BitVec.toNat_setWidth]

theorem exec_trapOut (s : State) : exec .trapOut s = .next (out [lowByte (s.reg 0)] s) := rfl

/-! ### The statements -/

/-- Settles O48: OUT writes the low byte of R0, whatever it is, and a write to the console leaves the rest alone. -/
theorem outWritesTheLowByte : Obligations.OutWritesTheLowByte := by
  unfold Obligations.OutWritesTheLowByte
  intro s
  have hbyte : ∃ b : Byte, b.toNat = (s.reg 0).toNat % 256 ∧ (out [lowByte (s.reg 0)] s).output = s.output ++ [b] :=
    ⟨lowByte (s.reg 0), toNat_lowByte _, out_output _ s⟩
  exact ⟨_, exec_trapOut s, hbyte, out_frame _ s⟩

end Sys2Proof.Machine
end

section
/-! PROOFS. 60_exceptions.md: what a fatal error changes and which instructions raise one (R190, R191), and the exit
code of a run (R212). -/

namespace Sys2Proof.Machine

/-! ### What raising a fatal error changes (R197) -/

/-- A fatal error stops the core and leaves its record; registers, memory, console and the step in progress stay. -/
theorem raise_frame (e : FatalError) (s : State) :
    (raise e s).status = .faulted ∧ (raise e s).fault = some e ∧ SameRegsExcept [] s (raise e s) ∧
      (raise e s).pc = s.pc ∧ (raise e s).cond = s.cond ∧ SameMemory s (raise e s) ∧ SameConsole s (raise e s) ∧
      (raise e s).hold = s.hold := by
  refine ⟨raise_status e s, raise_fault e s, fun r _ => reg_raise e s r, raise_pc e s, raise_cond e s,
    word_raise e s, ?console, raise_hold e s⟩
  case console => exact ⟨⟨raise_input e s, raise_availability e s, raise_draws e s⟩, raise_output e s⟩

/-! ### The instructions that raise one (R174, R180, R181) -/

theorem exec_rti (s : State) : exec .rti s = .next (raise (.decodeError 8#4) s) := rfl

theorem exec_res (s : State) : exec .res s = .next (raise (.decodeError 13#4) s) := rfl

theorem exec_trapUndefined (v : BitVec 8) (s : State) :
    exec (.trapUndefined v) s = .next (raise (.undefinedTrapVector v) s) := rfl

/-! ### The fault record under the operations that instructions share -/

@[simp] theorem blockingRead_fault (r : ReadService) (s : State) : (blockingRead r s).fault = s.fault := by
  rw [blockingRead_frame]

@[simp] theorem putString_fault (k : StringService) (s : State) : (putString k s).fault = s.fault := by
  rw [putString_frame]

@[simp] theorem loadFrom_fault (dr : Reg) (a : Word) (s : State) : (loadFrom dr a s).fault = s.fault := by
  rw [loadFrom_eq, writeResult_fault, memRead_fault]

@[simp] theorem indirect_fault (off : BitVec 9) (s : State) : (indirect off s).2.fault = s.fault := memRead_fault _ s

/-- An instruction leaves the fault record alone, or it is one of the three that raise a fatal error. -/
theorem exec_fault_cases {i : Instr} {s t : State} (h : exec i s = .next t) :
    t.fault = s.fault ∨ (i = .rti ∧ t = raise (.decodeError 8#4) s) ∨
      (i = .res ∧ t = raise (.decodeError 13#4) s) ∨
      ∃ v, i = .trapUndefined v ∧ t = raise (.undefinedTrapVector v) s := by
  cases i with
  | rti => rw [exec_rti] at h; cases h; exact .inr (.inl ⟨rfl, rfl⟩)
  | res => rw [exec_res] at h; cases h; exact .inr (.inr (.inl ⟨rfl, rfl⟩))
  | trapUndefined v => rw [exec_trapUndefined] at h; cases h; exact .inr (.inr (.inr ⟨v, rfl, rfl⟩))
  | br nzp off => rw [exec_br] at h; cases h; exact .inl (setPc_fault _ s)
  | addReg | addImm | andReg | andImm | not | lea => cases h; exact .inl (writeResult_fault _ _ s)
  | jsr | jsrr | jmp | st | str | trapOut | trapHalt => cases h; exact .inl rfl
  | ld | ldr => cases h; exact .inl (loadFrom_fault _ _ s)
  | ldi dr off => cases h; exact .inl ((loadFrom_fault dr _ _).trans (indirect_fault off s))
  | sti sr off => cases h; exact .inl (indirect_fault off s)
  | trapGetc | trapIn => cases h; exact .inl (blockingRead_fault _ _)
  | trapPuts | trapPutsp => cases h; exact .inl (putString_fault _ s)

/-! ### The exit code (R212) -/

theorem exitCode_of_alive {s : State} (h : s.status = .alive) : exitCode s = none := by
  unfold exitCode; rw [h]

theorem exitCode_of_dead {s : State} (h : s.status = .dead) : exitCode s = some 0 := by
  unfold exitCode; rw [h]

theorem exitCode_of_faulted {s : State} (h : s.status = .faulted) :
    exitCode s = some (Config.failureCodePred .fatalError + 1) := by
  unfold exitCode; rw [h]

/-- A code that is one more than the free value of its cause is not 0, whatever that value is. -/
theorem faultExitCode_ne_zero (f : Fault) : faultExitCode f ≠ 0 := by
  cases f with
  | interruptedExecution | loadError => exact Nat.succ_ne_zero _

/-! ### The statements -/

/-- Settles O53: RTI and RES raise with their own opcode, and the one other instruction that writes the record writes
an undefined vector into it. -/
theorem reservedOpcodesRaiseDecodeError : Obligations.ReservedOpcodesRaiseDecodeError := by
  unfold Obligations.ReservedOpcodesRaiseDecodeError
  refine ⟨fun s => ⟨⟨_, exec_rti s, raise_frame _ s⟩, ⟨_, exec_res s, raise_frame _ s⟩⟩, ?onlyThese⟩
  case onlyThese =>
    intro i s t op h hop
    rcases exec_fault_cases h with hsame | ⟨hi, -⟩ | ⟨hi, -⟩ | ⟨v, -, rfl⟩
    · exact .inl hsame.symm
    · exact .inr (.inl hi)
    · exact .inr (.inr hi)
    · rw [raise_fault] at hop
      cases hop

/-- Settles O57: of the three statuses only DEAD has the code 0, for ALIVE has none and FAULTED a successor. -/
theorem exitCodeIsZeroExactlyForDead : Obligations.ExitCodeIsZeroExactlyForDead := by
  unfold Obligations.ExitCodeIsZeroExactlyForDead
  refine ⟨fun s => ⟨fun hcode => ?dead, exitCode_of_dead⟩,
    fun s hf => ⟨_, exitCode_of_faulted hf, Nat.succ_ne_zero _⟩, faultExitCode_ne_zero⟩
  case dead =>
    cases hs : s.status with
    | dead => rfl
    | alive => rw [exitCode_of_alive hs] at hcode; cases hcode
    | faulted => rw [exitCode_of_faulted hs] at hcode; cases hcode

end Sys2Proof.Machine
end

section
/-! PROOFS. 70_reset_and_hazards.md: the outcome of launching a program file (R224, R226, R227). -/

namespace Sys2Proof.Machine

/-! ### The words of a file (R57, R224) -/

/-- A word is its high byte followed by its low byte. -/
theorem highByte_append_lowByte (v : Word) : highByte v ++ lowByte v = v := by
  have hjoin : highByte v ++ lowByte v = v.extractLsb' 0 (8 + 8) :=
    BitVec.extractLsb'_append_extractLsb'_eq_extractLsb' rfl
  exact hjoin.trans BitVec.extractLsb'_eq_self

/-- The file of a list of words: each as two bytes, the high byte first. -/
def fileOfWords (ws : List Word) : List Byte := ws.flatMap fun v => [highByte v, lowByte v]

theorem fileOfWords_cons (v : Word) (ws : List Word) :
    fileOfWords (v :: ws) = highByte v :: lowByte v :: fileOfWords ws := rfl

/-- Reading a file back gives the words it was made from. -/
theorem bigEndianWords_fileOfWords (ws : List Word) : bigEndianWords (fileOfWords ws) = some ws := by
  induction ws with
  | nil => rfl
  | cons v ws ih =>
    rw [fileOfWords_cons, bigEndianWords, ih, Option.map_some, highByte_append_lowByte]

/-! ### The image of a file (R224, R226) -/

theorem imageOfFile_fileOfWords (origin w : Word) (ws : List Word) :
    imageOfFile (fileOfWords (origin :: w :: ws)) = some ⟨origin, w :: ws⟩ := by
  unfold imageOfFile; rw [bigEndianWords_fileOfWords]

/-- With fewer than four bytes the origin or the first program word is missing, or the last word is cut in half. -/
theorem imageOfFile_eq_none_of_length_lt {bytes : List Byte} (h : bytes.length < 4) : imageOfFile bytes = none := by
  match bytes with
  | [] | [_] | [_, _] | [_, _, _] => rfl
  | _ :: _ :: _ :: _ :: rest => exact absurd h (Nat.not_lt.2 (Nat.le_add_left 4 rest.length))

/-! ### The outcome of a launch (R226, R227) -/

theorem launch_of_no_image {bytes : List Byte} (h : imageOfFile bytes = none) :
    launch bytes = .fault .loadError := by
  unfold launch; rw [h]

theorem launch_of_image {bytes : List Byte} {img : Image} (h : imageOfFile bytes = some img) :
    launch bytes = if img.fits then .next (launchState img) else .refused .imageDoesNotFit := by
  unfold launch; rw [h]

/-! ### The statements -/

/-- Settles O8: a file under four bytes has no image, and the file of an origin and words has just that image, which
the launch then accepts or refuses by its fit. -/
theorem launchOfAProgramFile : Obligations.LaunchOfAProgramFile := by
  unfold Obligations.LaunchOfAProgramFile
  refine ⟨fun bytes hshort => launch_of_no_image (imageOfFile_eq_none_of_length_lt hshort), ?words⟩
  case words => exact fun origin w ws => launch_of_image (imageOfFile_fileOfWords origin w ws)

end Sys2Proof.Machine
end

section
/-! PROOFS. 30_encoding.md: decoding undoes encoding, encoding undoes decoding for the canonical words (R87 to R90),
and every word belongs to the row of the instruction it decodes to (R97). -/

namespace Sys2Proof

/-! ### Words by their fields (R81, R82) -/

/-- Bits agree where the two neighbouring fields they make up agree. -/
theorem extractLsb'_eq_iff_split {n : Nat} (x y : BitVec n) (start hi lo : Nat) :
    x.extractLsb' start (hi + lo) = y.extractLsb' start (hi + lo) ↔
      x.extractLsb' (start + lo) hi = y.extractLsb' (start + lo) hi ∧
        x.extractLsb' start lo = y.extractLsb' start lo := by
  have hjoin : ∀ z : BitVec n, z.extractLsb' start (hi + lo) =
      z.extractLsb' (start + lo) hi ++ z.extractLsb' start lo :=
    fun _ => (BitVec.extractLsb'_append_extractLsb'_eq_extractLsb' rfl).symm
  rw [hjoin, hjoin]
  constructor
  · intro h
    have hupper := congrArg (BitVec.extractLsb' lo hi) h
    have hlower := congrArg (BitVec.extractLsb' 0 lo) h
    rw [BitVec.extractLsb'_append_eq_left, BitVec.extractLsb'_append_eq_left] at hupper
    rw [BitVec.extractLsb'_append_eq_right, BitVec.extractLsb'_append_eq_right] at hlower
    exact ⟨hupper, hlower⟩
  · rintro ⟨hupper, hlower⟩
    rw [hupper, hlower]

section
variable (x y : Word)

/-- The opcode and the twelve bits below it. -/
theorem eq_iff_opcode_rest :
    x = y ↔ fieldOpcode x = fieldOpcode y ∧ x.extractLsb' 0 12 = y.extractLsb' 0 12 := by
  have h := extractLsb'_eq_iff_split x y 0 4 12
  rwa [BitVec.extractLsb'_eq_self, BitVec.extractLsb'_eq_self] at h

/-- The fields of BR and of format PC9. -/
theorem eq_iff_pc9 :
    x = y ↔ fieldOpcode x = fieldOpcode y ∧ fieldNzp x = fieldNzp y ∧ fieldPCoffset9 x = fieldPCoffset9 y := by
  rw [eq_iff_opcode_rest, extractLsb'_eq_iff_split x y 0 3 9]; rfl

/-- The fields of formats BASE6, NOT, JMP and JSRR. -/
theorem eq_iff_base6 :
    x = y ↔ fieldOpcode x = fieldOpcode y ∧ fieldNzp x = fieldNzp y ∧
      x.extractLsb' 6 3 = y.extractLsb' 6 3 ∧ fieldOffset6 x = fieldOffset6 y := by
  rw [eq_iff_pc9, fieldPCoffset9, fieldPCoffset9, extractLsb'_eq_iff_split x y 0 3 6]; rfl

/-- The fields of format ALU-R, the clear bits among them. -/
theorem eq_iff_aluReg :
    x = y ↔ fieldOpcode x = fieldOpcode y ∧ fieldNzp x = fieldNzp y ∧ x.extractLsb' 6 3 = y.extractLsb' 6 3 ∧
      x.extractLsb' 3 3 = y.extractLsb' 3 3 ∧ x.extractLsb' 0 3 = y.extractLsb' 0 3 := by
  rw [eq_iff_base6, fieldOffset6, fieldOffset6, extractLsb'_eq_iff_split x y 0 3 3]

/-- The fields of format ALU-I. -/
theorem eq_iff_aluImm :
    x = y ↔ fieldOpcode x = fieldOpcode y ∧ fieldNzp x = fieldNzp y ∧ x.extractLsb' 6 3 = y.extractLsb' 6 3 ∧
      x.extractLsb' 5 1 = y.extractLsb' 5 1 ∧ fieldImm5 x = fieldImm5 y := by
  rw [eq_iff_base6, fieldOffset6, fieldOffset6, extractLsb'_eq_iff_split x y 0 1 5]; rfl

/-- The fields of the PC-relative JSR. -/
theorem eq_iff_jsr :
    x = y ↔ fieldOpcode x = fieldOpcode y ∧ x.extractLsb' 11 1 = y.extractLsb' 11 1 ∧
      fieldPCoffset11 x = fieldPCoffset11 y := by
  rw [eq_iff_opcode_rest, extractLsb'_eq_iff_split x y 0 1 11]; rfl

/-- The fields of TRAP. -/
theorem eq_iff_trap :
    x = y ↔ fieldOpcode x = fieldOpcode y ∧ x.extractLsb' 8 4 = y.extractLsb' 8 4 ∧
      fieldTrapvect8 x = fieldTrapvect8 y := by
  rw [eq_iff_opcode_rest, extractLsb'_eq_iff_split x y 0 4 8]; rfl

end

/-- A field of one bit is that bit. -/
theorem extractLsb'_one_eq_iff (w : Word) (i : Nat) (b : Bool) :
    w.extractLsb' i 1 = BitVec.ofBool b ↔ w.getLsbD i = b := by
  rw [BitVec.getLsbD_eq_extractLsb']
  generalize w.extractLsb' i 1 = c
  revert c b; decide

theorem extractLsb'_one_eq_one_iff (w : Word) (i : Nat) : w.extractLsb' i 1 = 0b1#1 ↔ w.getLsbD i = true :=
  extractLsb'_one_eq_iff w i true

theorem regBits_fieldDR (w : Word) : regBits (fieldDR w) = fieldNzp w := rfl

theorem regBits_fieldSR1 (w : Word) : regBits (fieldSR1 w) = w.extractLsb' 6 3 := rfl

theorem regBits_fieldSR2 (w : Word) : regBits (fieldSR2 w) = w.extractLsb' 0 3 := rfl

theorem fieldDR_eq (w : Word) : fieldDR w = (fieldNzp w).toFin := rfl

/-! ### The fields of an encoded word (R87, R88) -/

/-- The upper part of a join, whatever way its position is written. -/
theorem extractLsb'_append_upper {n m start : Nat} (x : BitVec n) (y : BitVec m) (h : start = m) :
    (x ++ y).extractLsb' start n = x := by
  rw [h, BitVec.extractLsb'_append_eq_left]

theorem fieldOpcode_withOpcode (op : Opcode) (rest : BitVec 12) : fieldOpcode (withOpcode op rest) = op.code :=
  BitVec.extractLsb'_append_eq_left

/-- A field below the opcode is a field of the rest. -/
theorem extractLsb'_withOpcode (op : Opcode) (rest : BitVec 12) {start len : Nat} (h : start + len ≤ 12) :
    (withOpcode op rest).extractLsb' start len = rest.extractLsb' start len :=
  BitVec.extractLsb'_append_eq_of_add_le h

section
variable (op : Opcode)

theorem fields_encodeAluReg (dr sr1 sr2 : Reg) :
    fieldOpcode (encodeAluReg op dr sr1 sr2) = op.code ∧ fieldNzp (encodeAluReg op dr sr1 sr2) = regBits dr ∧
      (encodeAluReg op dr sr1 sr2).extractLsb' 6 3 = regBits sr1 ∧
      (encodeAluReg op dr sr1 sr2).extractLsb' 3 3 = 0b000#3 ∧
      (encodeAluReg op dr sr1 sr2).extractLsb' 0 3 = regBits sr2 := by
  refine ⟨fieldOpcode_withOpcode op _, ?_⟩
  simp (disch := decide) only [encodeAluReg, fieldNzp, extractLsb'_withOpcode,
    BitVec.extractLsb'_append_eq_of_add_le, extractLsb'_append_upper, BitVec.extractLsb'_eq_self, and_self]

theorem fields_encodeAluImm (dr sr1 : Reg) (imm5 : BitVec 5) :
    fieldOpcode (encodeAluImm op dr sr1 imm5) = op.code ∧ fieldNzp (encodeAluImm op dr sr1 imm5) = regBits dr ∧
      (encodeAluImm op dr sr1 imm5).extractLsb' 6 3 = regBits sr1 ∧
      (encodeAluImm op dr sr1 imm5).extractLsb' 5 1 = 0b1#1 ∧ fieldImm5 (encodeAluImm op dr sr1 imm5) = imm5 := by
  refine ⟨fieldOpcode_withOpcode op _, ?_⟩
  simp (disch := decide) only [encodeAluImm, fieldNzp, fieldImm5, extractLsb'_withOpcode,
    BitVec.extractLsb'_append_eq_of_add_le, extractLsb'_append_upper, BitVec.extractLsb'_eq_self, and_self]

/-- BR has a mask where format PC9 has a register. -/
theorem fields_withOpcode_pc9 (nzp : BitVec 3) (off : BitVec 9) :
    fieldOpcode (withOpcode op (nzp ++ off)) = op.code ∧ fieldNzp (withOpcode op (nzp ++ off)) = nzp ∧
      fieldPCoffset9 (withOpcode op (nzp ++ off)) = off := by
  refine ⟨fieldOpcode_withOpcode op _, ?_⟩
  simp (disch := decide) only [fieldNzp, fieldPCoffset9, extractLsb'_withOpcode,
    BitVec.extractLsb'_append_eq_of_add_le, extractLsb'_append_upper, BitVec.extractLsb'_eq_self, and_self]

/-- The formats of two fields of three bits and six bits below them: BASE6, NOT, JMP and JSRR. -/
theorem fields_withOpcode_base6 (hi base : BitVec 3) (off : BitVec 6) :
    fieldOpcode (withOpcode op (hi ++ (base ++ off))) = op.code ∧
      fieldNzp (withOpcode op (hi ++ (base ++ off))) = hi ∧
      (withOpcode op (hi ++ (base ++ off))).extractLsb' 6 3 = base ∧
      fieldOffset6 (withOpcode op (hi ++ (base ++ off))) = off := by
  refine ⟨fieldOpcode_withOpcode op _, ?_⟩
  simp (disch := decide) only [fieldNzp, fieldOffset6, extractLsb'_withOpcode,
    BitVec.extractLsb'_append_eq_of_add_le, extractLsb'_append_upper, BitVec.extractLsb'_eq_self, and_self]

theorem fields_withOpcode_jsr (off : BitVec 11) :
    fieldOpcode (withOpcode op (0b1#1 ++ off)) = op.code ∧
      (withOpcode op (0b1#1 ++ off)).extractLsb' 11 1 = 0b1#1 ∧
      fieldPCoffset11 (withOpcode op (0b1#1 ++ off)) = off := by
  refine ⟨fieldOpcode_withOpcode op _, ?_⟩
  simp (disch := decide) only [fieldPCoffset11, extractLsb'_withOpcode,
    extractLsb'_append_upper, BitVec.extractLsb'_append_eq_of_add_le, BitVec.extractLsb'_eq_self, and_self]

theorem fields_encodeTrap (v : BitVec 8) :
    fieldOpcode (encodeTrap v) = Opcode.trap.code ∧ (encodeTrap v).extractLsb' 8 4 = 0b0000#4 ∧
      fieldTrapvect8 (encodeTrap v) = v := by
  refine ⟨fieldOpcode_withOpcode .trap _, ?_⟩
  simp (disch := decide) only [encodeTrap, fieldTrapvect8, extractLsb'_withOpcode,
    extractLsb'_append_upper, BitVec.extractLsb'_append_eq_of_add_le, BitVec.extractLsb'_eq_self, and_self]

end

/-! ### Decoding undoes encoding (R87, R88) -/

/-- The bit that marks the immediate form lies in the bits ALU-R ignores. -/
theorem flagImm_encodeAluReg (op : Opcode) (dr sr1 sr2 : Reg) : flagImm (encodeAluReg op dr sr1 sr2) = false := by
  obtain ⟨-, -, -, hclear, -⟩ := fields_encodeAluReg op dr sr1 sr2
  have hbit : flagImm (encodeAluReg op dr sr1 sr2) = ((encodeAluReg op dr sr1 sr2).extractLsb' 3 3).getLsbD 2 := by
    rw [BitVec.getLsbD_extractLsb']; rfl
  rw [hbit, hclear]; rfl

theorem flagImm_encodeAluImm (op : Opcode) (dr sr1 : Reg) (imm5 : BitVec 5) :
    flagImm (encodeAluImm op dr sr1 imm5) = true := by
  obtain ⟨-, -, -, hset, -⟩ := fields_encodeAluImm op dr sr1 imm5
  exact (extractLsb'_one_eq_one_iff _ 5).1 hset

/-- The bit that marks the PC-relative form lies in the bits JSRR ignores. -/
theorem flagRel_encodeBase (op : Opcode) (base : Reg) : flagRel (encodeBase op base) = false := by
  obtain ⟨-, hclear, -⟩ := fields_withOpcode_base6 op 0b000#3 (regBits base) 0b000000#6
  have hbit : flagRel (encodeBase op base) = (fieldNzp (encodeBase op base)).getLsbD 2 := by
    rw [fieldNzp, BitVec.getLsbD_extractLsb']; rfl
  rw [hbit, encodeBase, hclear]; rfl

theorem flagRel_withOpcode_jsr (op : Opcode) (off : BitVec 11) : flagRel (withOpcode op (0b1#1 ++ off)) = true := by
  obtain ⟨-, hset, -⟩ := fields_withOpcode_jsr op off
  exact (extractLsb'_one_eq_one_iff _ 11).1 hset

theorem decodeTrap_of_undefined {v : BitVec 8} (h : Machine.definedVectors.contains v = false) :
    decodeTrap v = .trapUndefined v := by
  simp only [Machine.definedVectors, List.contains_cons, List.contains_nil, Bool.or_false, Bool.or_eq_false_iff,
    beq_eq_false_iff_ne] at h
  obtain ⟨hgetc, hout, hputs, hin, hputsp, hhalt⟩ := h
  rw [decodeTrap, if_neg hgetc, if_neg hout, if_neg hputs, if_neg hin, if_neg hputsp, if_neg hhalt]

theorem opcodeOf_encode {i : Instr} {w : Word} (h : encode i = some w) : opcodeOf (fieldOpcode w) = i.opcode := by
  cases i <;> cases h <;> exact Laws.EncodesOpcode.of_withOpcode _ _

theorem decode_encode {i : Instr} {w : Word} (hwf : i.wellFormed = true) (h : encode i = some w) : decode w = i := by
  have hop : opcodeOf (fieldOpcode w) = i.opcode := opcodeOf_encode h
  cases i with
  | br nzp off => cases h; simp only [decode, opcodeOf_code, fields_withOpcode_pc9]
  | addReg | andReg =>
    cases h
    simp only [decode, opcodeOf_code, flagImm_encodeAluReg, Bool.false_eq_true, if_false, fieldDR_eq, fieldSR1,
      fieldSR2, fields_encodeAluReg, regBits_toFin]
  | addImm | andImm =>
    cases h
    simp only [decode, opcodeOf_code, flagImm_encodeAluImm, if_true, fieldDR_eq, fieldSR1, fields_encodeAluImm,
      regBits_toFin]
  | ld | st | ldi | sti | lea =>
    cases h
    simp only [decode, opcodeOf_code, encodePC9, fieldDR_eq, fields_withOpcode_pc9, regBits_toFin]
  | ldr | str =>
    cases h
    simp only [decode, opcodeOf_code, encodeBase6, fieldDR_eq, fieldSR1, fields_withOpcode_base6, regBits_toFin]
  | not =>
    cases h
    simp only [decode, opcodeOf_code, fieldDR_eq, fieldSR1, fields_withOpcode_base6, regBits_toFin]
  | jsr => cases h; simp only [decode, opcodeOf_code, flagRel_withOpcode_jsr, if_true, fields_withOpcode_jsr]
  | jsrr base =>
    cases h
    have hbase : fieldSR1 (encodeBase .jsr base) = base := by
      simp only [encodeBase, fieldSR1, fields_withOpcode_base6, regBits_toFin]
    simp only [decode, hop, Instr.opcode, flagRel_encodeBase, Bool.false_eq_true, if_false, hbase]
  | jmp base =>
    cases h
    simp only [decode, opcodeOf_code, encodeBase, fieldSR1, fields_withOpcode_base6, regBits_toFin]
  | rti => cases h
  | res => simp only [decode, hop, Instr.opcode]
  | trapGetc | trapOut | trapPuts | trapIn | trapPutsp | trapHalt =>
    cases h; simp only [decode, opcodeOf_code, fields_encodeTrap]; rfl
  | trapUndefined v =>
    cases h
    have hv : Machine.definedVectors.contains v = false := by simpa only [Instr.wellFormed, Bool.not_eq_true'] using hwf
    simp only [decode, opcodeOf_code, fields_encodeTrap, decodeTrap_of_undefined hv]

theorem encode_eq_none_iff (i : Instr) : encode i = none ↔ i = .rti := by
  cases i <;> simp only [encode, reduceCtorEq]

/-! ### Encoding the fields of a word -/

section
variable (op : Opcode) (w : Word)

theorem encodeAluReg_eq_iff :
    encodeAluReg op (fieldDR w) (fieldSR1 w) (fieldSR2 w) = w ↔
      fieldOpcode w = op.code ∧ w.extractLsb' 3 3 = 0b000#3 := by
  simp only [eq_iff_aluReg, fields_encodeAluReg, regBits_fieldDR, regBits_fieldSR1, regBits_fieldSR2, true_and,
    and_true, eq_comm]

theorem encodeAluImm_eq_iff :
    encodeAluImm op (fieldDR w) (fieldSR1 w) (fieldImm5 w) = w ↔
      fieldOpcode w = op.code ∧ flagImm w = true := by
  rw [flagImm, ← extractLsb'_one_eq_one_iff]
  simp only [eq_iff_aluImm, fields_encodeAluImm, regBits_fieldDR, regBits_fieldSR1, true_and, and_true,
    eq_comm]

theorem withOpcode_pc9_eq_iff : withOpcode op (fieldNzp w ++ fieldPCoffset9 w) = w ↔ fieldOpcode w = op.code := by
  simp only [eq_iff_pc9, fields_withOpcode_pc9, and_true, eq_comm]

theorem encodeBase6_eq_iff :
    encodeBase6 op (fieldDR w) (fieldSR1 w) (fieldOffset6 w) = w ↔ fieldOpcode w = op.code := by
  simp only [encodeBase6, eq_iff_base6, fields_withOpcode_base6, regBits_fieldDR, regBits_fieldSR1, and_true, eq_comm]

theorem encodeBase_eq_iff :
    encodeBase op (fieldSR1 w) = w ↔
      fieldOpcode w = op.code ∧ fieldNzp w = 0b000#3 ∧ fieldOffset6 w = 0b000000#6 := by
  simp only [encodeBase, eq_iff_base6, fields_withOpcode_base6, regBits_fieldSR1, true_and, eq_comm]

theorem withOpcode_not_eq_iff :
    withOpcode op (regBits (fieldDR w) ++ (regBits (fieldSR1 w) ++ 0b111111#6)) = w ↔
      fieldOpcode w = op.code ∧ fieldOffset6 w = 0b111111#6 := by
  simp only [eq_iff_base6, fields_withOpcode_base6, regBits_fieldDR, regBits_fieldSR1, true_and, eq_comm]

theorem withOpcode_jsr_eq_iff :
    withOpcode op (0b1#1 ++ fieldPCoffset11 w) = w ↔ fieldOpcode w = op.code ∧ flagRel w = true := by
  rw [flagRel, ← extractLsb'_one_eq_one_iff]
  simp only [eq_iff_jsr, fields_withOpcode_jsr, and_true, eq_comm]

theorem encodeTrap_eq_iff :
    encodeTrap (fieldTrapvect8 w) = w ↔ fieldOpcode w = Opcode.trap.code ∧ w.extractLsb' 8 4 = 0b0000#4 := by
  simp only [eq_iff_trap, fields_encodeTrap, and_true, eq_comm]

end

/-! ### The words of a row (R97)

A row's mask covers each field of its format whole or not at all. -/

theorem and_fifteen (c : BitVec 4) : c &&& 15#4 = c := BitVec.and_allOnes

theorem and_one (c : BitVec 1) : c &&& 1#1 = c := BitVec.and_allOnes

theorem and_seven (c : BitVec 3) : c &&& 7#3 = c := BitVec.and_allOnes

theorem and_sixtyThree (c : BitVec 6) : c &&& 63#6 = c := BitVec.and_allOnes

theorem and_255 (c : BitVec 8) : c &&& 255#8 = c := BitVec.and_allOnes

section
variable (op : Opcode) (w : Word)

theorem matchesWord_iff (row : OpcodeRow) : row.matchesWord w = true ↔ w &&& row.mask = row.bits := beq_iff_eq

theorem opcode_iff_matches :
    fieldOpcode w = op.code ↔
      OpcodeRow.matchesWord ⟨0xF000#16, withOpcode op 0x000#12⟩ w = true := by
  rw [matchesWord_iff, eq_iff_opcode_rest, fieldOpcode_withOpcode]
  simp (disch := decide) only [fieldOpcode, BitVec.extractLsb'_and, BitVec.reduceExtractLsb', and_fifteen,
    BitVec.and_zero, extractLsb'_withOpcode, and_true]

theorem flagImm_iff_matches (b : Bool) :
    fieldOpcode w = op.code ∧ flagImm w = b ↔
      OpcodeRow.matchesWord ⟨0xF020#16, withOpcode op (0b000#3 ++ (0b000#3 ++ (BitVec.ofBool b ++ 0b00000#5)))⟩ w =
        true := by
  rw [matchesWord_iff, eq_iff_aluImm, fieldOpcode_withOpcode, flagImm, ← extractLsb'_one_eq_iff]
  simp (disch := decide) only [fieldOpcode, fieldNzp, fieldImm5, BitVec.extractLsb'_and, BitVec.reduceExtractLsb',
    and_fifteen, and_one, BitVec.and_zero, extractLsb'_withOpcode, BitVec.extractLsb'_append_eq_of_add_le,
    extractLsb'_append_upper, true_and, and_true]

theorem flagRel_iff_matches (b : Bool) :
    fieldOpcode w = op.code ∧ flagRel w = b ↔
      OpcodeRow.matchesWord ⟨0xF800#16, withOpcode op (BitVec.ofBool b ++ 0b00000000000#11)⟩ w = true := by
  rw [matchesWord_iff, eq_iff_jsr, fieldOpcode_withOpcode, flagRel, ← extractLsb'_one_eq_iff]
  simp (disch := decide) only [fieldOpcode, fieldPCoffset11, BitVec.extractLsb'_and, BitVec.reduceExtractLsb',
    and_fifteen, and_one, BitVec.and_zero, extractLsb'_withOpcode, BitVec.extractLsb'_append_eq_of_add_le,
    extractLsb'_append_upper, and_true]

theorem aluReg_clear_iff_matches :
    fieldOpcode w = op.code ∧ w.extractLsb' 3 3 = 0b000#3 ↔
      OpcodeRow.matchesWord ⟨0xF038#16, withOpcode op 0x000#12⟩ w = true := by
  rw [matchesWord_iff, eq_iff_aluReg, fieldOpcode_withOpcode]
  simp (disch := decide) only [fieldOpcode, fieldNzp, BitVec.extractLsb'_and, BitVec.reduceExtractLsb', and_fifteen,
    and_seven, BitVec.and_zero, extractLsb'_withOpcode, true_and, and_true]

theorem base_clear_iff_matches :
    fieldOpcode w = op.code ∧ fieldNzp w = 0b000#3 ∧ fieldOffset6 w = 0b000000#6 ↔
      OpcodeRow.matchesWord ⟨0xFE3F#16, withOpcode op 0x000#12⟩ w = true := by
  rw [matchesWord_iff, eq_iff_base6, fieldOpcode_withOpcode]
  simp (disch := decide) only [fieldOpcode, fieldNzp, fieldOffset6, BitVec.extractLsb'_and, BitVec.reduceExtractLsb',
    and_fifteen, and_seven, and_sixtyThree, BitVec.and_zero, extractLsb'_withOpcode, true_and]

theorem not_set_iff_matches :
    fieldOpcode w = op.code ∧ fieldOffset6 w = 0b111111#6 ↔
      OpcodeRow.matchesWord ⟨0xF03F#16, withOpcode op 0x03F#12⟩ w = true := by
  rw [matchesWord_iff, eq_iff_base6, fieldOpcode_withOpcode]
  simp (disch := decide) only [fieldOpcode, fieldNzp, fieldOffset6, BitVec.extractLsb'_and, BitVec.reduceExtractLsb',
    and_fifteen, and_sixtyThree, BitVec.and_zero, extractLsb'_withOpcode, true_and]

theorem trap_clear_iff_matches :
    fieldOpcode w = op.code ∧ w.extractLsb' 8 4 = 0b0000#4 ↔
      OpcodeRow.matchesWord ⟨0xFF00#16, withOpcode op 0x000#12⟩ w = true := by
  rw [matchesWord_iff, eq_iff_trap, fieldOpcode_withOpcode]
  simp (disch := decide) only [fieldOpcode, fieldTrapvect8, BitVec.extractLsb'_and, BitVec.reduceExtractLsb',
    and_fifteen, BitVec.and_zero, extractLsb'_withOpcode, and_true]

theorem vector_iff_matches (v : BitVec 8) :
    fieldOpcode w = Opcode.trap.code ∧ fieldTrapvect8 w = v ↔
      OpcodeRow.matchesWord ⟨0xF0FF#16, encodeTrap v⟩ w = true := by
  obtain ⟨hop, hclear, hvect⟩ := fields_encodeTrap v
  rw [matchesWord_iff, eq_iff_trap, hop, hclear, hvect]
  simp only [fieldOpcode, fieldTrapvect8, BitVec.extractLsb'_and, BitVec.reduceExtractLsb', and_fifteen, and_255,
    BitVec.and_zero, true_and]

theorem eq_iff_matches (b : Word) : b = w ↔ OpcodeRow.matchesWord ⟨0xFFFF#16, b⟩ w = true := by
  have hall : w &&& 0xFFFF#16 = w := BitVec.and_allOnes
  rw [matchesWord_iff, hall, eq_comm]

end

/-! ### The canonical words (R87, R90) -/

/-- An instruction with a word has w for its word exactly if w is canonical, where both say the same of w's fields. -/
theorem encode_iff_canonical {i : Instr} {w w' : Word} {P : Prop} (henc : encode i = some w') (hword : w' = w ↔ P)
    (hrow : P ↔ i.canonicalRow.matchesWord w = true) :
    encode i = some w ↔ i.canonicalRow.matchesWord w = true ∧ i ≠ .rti := by
  have hrti : i ≠ .rti := fun h => by rw [h] at henc; cases henc
  rw [henc, Option.some_inj, hword.trans hrow]
  exact (and_iff_left hrti).symm

theorem encode_decodeTrap (v : BitVec 8) : encode (decodeTrap v) = some (encodeTrap v) := by
  unfold decodeTrap; split_ifs <;> simp only [encode, *]

/-- A service's canonical words are one word; an undefined vector's are those with bits 11:8 clear. -/
theorem canonicalRow_decodeTrap (v : BitVec 8) :
    (decodeTrap v).canonicalRow = ⟨0xFFFF#16, encodeTrap v⟩ ∨
      (decodeTrap v).canonicalRow = ⟨0xFF00#16, 0xF000#16⟩ := by
  unfold decodeTrap
  split_ifs
  iterate 6 · left; subst v; rfl
  right; rfl

theorem encode_decode_iff (w : Word) : encode (decode w) = some w ↔ canonicalWord w = true ∧ decode w ≠ .rti := by
  rw [canonicalWord]
  cases h : opcodeOf (fieldOpcode w) with
  | br | ld | st | ldi | sti | lea =>
    simp only [decode, h]
    exact encode_iff_canonical rfl (withOpcode_pc9_eq_iff _ w) (opcode_iff_matches _ w)
  | ldr | str =>
    simp only [decode, h]
    exact encode_iff_canonical rfl (encodeBase6_eq_iff _ w) (opcode_iff_matches _ w)
  | add | and =>
    by_cases hi : flagImm w = true
    · simp only [decode, h, if_pos hi]
      exact encode_iff_canonical rfl (encodeAluImm_eq_iff _ w) (flagImm_iff_matches _ w true)
    · simp only [decode, h, if_neg hi]
      exact encode_iff_canonical rfl (encodeAluReg_eq_iff _ w) (aluReg_clear_iff_matches _ w)
  | jsr =>
    by_cases hr : flagRel w = true
    · simp only [decode, h, if_pos hr]
      exact encode_iff_canonical rfl (withOpcode_jsr_eq_iff .jsr w) (flagRel_iff_matches .jsr w true)
    · simp only [decode, h, if_neg hr]
      exact encode_iff_canonical rfl (encodeBase_eq_iff .jsr w) (base_clear_iff_matches .jsr w)
  | jmp =>
    simp only [decode, h]
    exact encode_iff_canonical rfl (encodeBase_eq_iff .jmp w) (base_clear_iff_matches .jmp w)
  | not =>
    simp only [decode, h]
    exact encode_iff_canonical rfl (withOpcode_not_eq_iff .not w) (not_set_iff_matches .not w)
  | res =>
    simp only [decode, h]
    exact encode_iff_canonical rfl Iff.rfl (eq_iff_matches w _)
  | rti =>
    simp only [decode, h, encode, ne_eq, not_true_eq_false, and_false, reduceCtorEq]
  | trap =>
    simp only [decode, h]
    rcases canonicalRow_decodeTrap (fieldTrapvect8 w) with hrow | hrow
    · exact encode_iff_canonical (encode_decodeTrap _) Iff.rfl (hrow ▸ eq_iff_matches w _)
    · exact encode_iff_canonical (encode_decodeTrap _) (encodeTrap_eq_iff w) (hrow ▸ trap_clear_iff_matches .trap w)

/-! ### Signed fields (R88) -/

/-- A value in the signed range of its field survives being masked to it. -/
theorem toInt_signedField {n : Nat} (hn : 0 < n) {v : Int} (hlo : -(2 ^ (n - 1) : Int) ≤ v)
    (hhi : v ≤ 2 ^ (n - 1) - 1) : (signedField n v).toInt = v :=
  BitVec.toInt_ofInt_eq_self hn hlo (Int.lt_of_le_sub_one hhi)

/-- Settles O1: each format's fields come back from the word that joins them, and a word is the join of the fields it
keeps exactly when the bits it ignores are canonical. -/
theorem decodeEncodeRoundTrip : Obligations.DecodeEncodeRoundTrip := by
  unfold Obligations.DecodeEncodeRoundTrip
  exact ⟨encode_eq_none_iff, fun i w hwf h => decode_encode hwf h, encode_decode_iff,
    fun v hlo hhi => toInt_signedField (n := 5) (by decide) hlo hhi,
    fun v hlo hhi => toInt_signedField (n := 6) (by decide) hlo hhi,
    fun v hlo hhi => toInt_signedField (n := 9) (by decide) hlo hhi,
    fun v hlo hhi => toInt_signedField (n := 11) (by decide) hlo hhi⟩

/-! ### The row a word belongs to (R97) -/

theorem decode_wellFormed (w : Word) : (decode w).wellFormed = true := by
  cases h : opcodeOf (fieldOpcode w) with
  | add | and | jsr => simp only [decode, h]; split_ifs <;> rfl
  | trap => simp only [decode, h]; exact decodeTrap_wellFormed _
  | br | ld | st | ldr | str | rti | not | ldi | sti | jmp | res | lea => simp only [decode, h]; rfl

theorem decodeTrap_opcode (v : BitVec 8) : (decodeTrap v).opcode = .trap := by
  unfold decodeTrap; split_ifs <;> rfl

theorem decode_opcode (w : Word) : (decode w).opcode = opcodeOf (fieldOpcode w) := by
  cases h : opcodeOf (fieldOpcode w) with
  | add | and | jsr => simp only [decode, h]; split_ifs <;> rfl
  | trap => simp only [decode, h]; exact decodeTrap_opcode _
  | br | ld | st | ldr | str | rti | not | ldi | sti | jmp | res | lea => simp only [decode, h]; rfl

/-- A vector's row fixes the vector, or it is the row of the undefined ones. -/
theorem row_decodeTrap (v : BitVec 8) :
    (decodeTrap v).row = ⟨0xF0FF#16, encodeTrap v⟩ ∨ (decodeTrap v).row = ⟨0xF000#16, 0xF000#16⟩ := by
  unfold decodeTrap
  split_ifs
  iterate 6 · left; subst v; rfl
  right; rfl

theorem decode_row_matches (w : Word) : (decode w).row.matchesWord w = true := by
  have hcode : fieldOpcode w = (opcodeOf (fieldOpcode w)).code := (code_opcodeOf _).symm
  cases h : opcodeOf (fieldOpcode w) with rw [h] at hcode
  | br | ld | st | ldr | str | rti | not | ldi | sti | jmp | res | lea =>
    simp only [decode, h]
    exact (opcode_iff_matches _ w).1 hcode
  | add | and =>
    by_cases hi : flagImm w = true
    · simp only [decode, h, if_pos hi]
      exact (flagImm_iff_matches _ w true).1 ⟨hcode, hi⟩
    · simp only [decode, h, if_neg hi]
      exact (flagImm_iff_matches _ w false).1 ⟨hcode, Bool.eq_false_iff.2 hi⟩
  | jsr =>
    by_cases hr : flagRel w = true
    · simp only [decode, h, if_pos hr]
      exact (flagRel_iff_matches .jsr w true).1 ⟨hcode, hr⟩
    · simp only [decode, h, if_neg hr]
      exact (flagRel_iff_matches .jsr w false).1 ⟨hcode, Bool.eq_false_iff.2 hr⟩
  | trap =>
    simp only [decode, h]
    rcases row_decodeTrap (fieldTrapvect8 w) with hrow | hrow
    · exact hrow ▸ (vector_iff_matches w _).1 ⟨hcode, rfl⟩
    · exact hrow ▸ (opcode_iff_matches .trap w).1 hcode

/-- Every row fixes the opcode's bits. -/
theorem row_fixes_opcode (i : Instr) :
    fieldOpcode i.row.mask = BitVec.allOnes 4 ∧ fieldOpcode i.row.bits = i.opcode.code := by
  cases i <;> simp only [Instr.row, Instr.opcode] <;> decide

theorem opcode_of_row_matches {i : Instr} {w : Word} (h : i.row.matchesWord w = true) :
    (decode w).opcode = i.opcode := by
  obtain ⟨hmask, hbits⟩ := row_fixes_opcode i
  have hfield : fieldOpcode w &&& fieldOpcode i.row.mask = fieldOpcode i.row.bits := by
    rw [← (matchesWord_iff w i.row).1 h]; exact BitVec.extractLsb'_and.symm
  rw [hmask, BitVec.and_allOnes, hbits] at hfield
  rw [decode_opcode, hfield, opcodeOf_code]

/-- The bits by which a row of the opcode is told from the others; TRAP's rows have two masks. -/
def selectorMask : Opcode → Word
  | .add => 0xF020#16
  | .and => 0xF020#16
  | .jsr => 0xF800#16
  | _ => 0xF000#16

theorem row_mask {i : Instr} (h : i.opcode ≠ .trap) : i.row.mask = selectorMask i.opcode := by
  cases i with
  | trapGetc | trapOut | trapPuts | trapIn | trapPutsp | trapHalt | trapUndefined => exact absurd rfl h
  | _ => rfl

/-- Two rows with one mask that a word belongs to are one row. -/
theorem row_eq_of_mask_eq {r r' : OpcodeRow} {w : Word} (hmask : r.mask = r'.mask) (h : r.matchesWord w = true)
    (h' : r'.matchesWord w = true) : r = r' := by
  obtain ⟨m, b⟩ := r
  obtain ⟨m', b'⟩ := r'
  have hb : w &&& m = b := (matchesWord_iff w _).1 h
  have hb' : w &&& m' = b' := (matchesWord_iff w _).1 h'
  cases hmask
  rw [← hb, ← hb']

/-- A word of a service's row decodes to the service. -/
theorem decode_of_vector_row {v : BitVec 8} {w : Word}
    (h : OpcodeRow.matchesWord ⟨0xF0FF#16, encodeTrap v⟩ w = true) : decode w = decodeTrap v := by
  obtain ⟨hop, hv⟩ := (vector_iff_matches w v).2 h
  simp only [decode, hop, opcodeOf_code, hv]

theorem eq_decode_of_trap_row {i : Instr} {w : Word} (hi : i.opcode = .trap) (h : i.row.matchesWord w = true) :
    i = decode w ∨ ∃ v, i = .trapUndefined v := by
  cases i with
  | trapUndefined v => exact .inr ⟨v, rfl⟩
  | trapGetc => exact .inl (decode_of_vector_row (v := Machine.vectGetc) h).symm
  | trapOut => exact .inl (decode_of_vector_row (v := Machine.vectOut) h).symm
  | trapPuts => exact .inl (decode_of_vector_row (v := Machine.vectPuts) h).symm
  | trapIn => exact .inl (decode_of_vector_row (v := Machine.vectIn) h).symm
  | trapPutsp => exact .inl (decode_of_vector_row (v := Machine.vectPutsp) h).symm
  | trapHalt => exact .inl (decode_of_vector_row (v := Machine.vectHalt) h).symm
  | _ => cases hi

/-- Settles O2: a row fixes the opcode, and among the rows of one opcode the mask is the same or, for TRAP, the row
fixes the vector. -/
theorem everyWordDecodesByItsTableRow : Obligations.EveryWordDecodesByItsTableRow := by
  unfold Obligations.EveryWordDecodesByItsTableRow
  intro w
  refine ⟨decode_wellFormed w, decode_row_matches w, fun i h => ?_⟩
  have hop := opcode_of_row_matches h
  by_cases htrap : i.opcode = .trap
  · rcases eq_decode_of_trap_row htrap h with heq | hundef
    · exact .inl (congrArg Instr.row heq)
    · exact .inr ⟨hundef, hop.trans htrap⟩
  · have hmask : i.row.mask = (decode w).row.mask := by
      rw [row_mask htrap, row_mask (hop ▸ htrap), hop]
    exact .inl (row_eq_of_mask_eq hmask h (decode_row_matches w))

/-- Settles O4: the ten words, each by evaluation. -/
theorem exampleWordsDecode : Obligations.ExampleWordsDecode := by
  unfold Obligations.ExampleWordsDecode
  decide

end Sys2Proof
end

section
/-! PROOFS. 10_state.md and 40_fetch_execute_loop.md: what a step does to the status, the step in progress and the
invariant (R28, R31, R42, R110, R166). -/

namespace Sys2Proof.Machine

/-! ### The operation of each TRAP service (R162, R166, R168, R170, R172) -/

theorem exec_trapGetc (s : State) : exec .trapGetc s = .next (blockingRead .getc s) := rfl

theorem exec_trapIn (s : State) : exec .trapIn s = .next (blockingRead .inEcho (out Config.inPrompt s)) := rfl

theorem exec_trapPuts (s : State) : exec .trapPuts s = .next (putString .puts s) := rfl

theorem exec_trapPutsp (s : State) : exec .trapPutsp s = .next (putString .putsp s) := rfl

theorem exec_trapHalt (s : State) :
    exec .trapHalt s = .next { out Config.haltNotice s with status := .dead } := rfl

/-! ### Every instruction and every step has a next state (R192) -/

theorem exec_next (i : Instr) (s : State) : ∃ t, exec i s = .next t := by
  cases i <;> exact ⟨_, rfl⟩

/-- Settles O12: a step runs an instruction, goes on with a held one, or changes nothing. -/
theorem everyStepHasANextState : Obligations.EveryStepHasANextState := by
  unfold Obligations.EveryStepHasANextState
  intro s
  by_cases ha : s.status = .alive
  · cases hh : s.hold with
    | none => rw [step_of_fetch ha hh]; exact exec_next _ _
    | some d => exact ⟨_, step_of_hold ha hh⟩
  · exact ⟨s, step_of_stopped ha⟩

/-! ### Runs -/

theorem run_succ_of_step {M : Host.Core} {s t : M.State} (h : M.step s = .next t) (k : Nat) :
    M.run (k + 1) s = M.run k t := by
  rw [Host.Core.run, h]

theorem run_succ {s t : State} (h : step s = .next t) (k : Nat) :
    Host.Core.run core (k + 1) s = Host.Core.run core k t := run_succ_of_step (M := core) h k

/-- A state that steps to itself stays so for any number of steps. -/
theorem run_of_step_self {s : State} (h : step s = .next s) (k : Nat) : Host.Core.run core k s = .next s := by
  induction k with
  | zero => rfl
  | succ k ih => exact (run_succ h k).trans ih

/-- Settles O13: a stopped core steps to itself. -/
theorem stoppedCoreStaysAsItIs : Obligations.StoppedCoreStaysAsItIs := by
  unfold Obligations.StoppedCoreStaysAsItIs
  exact fun s k hs => run_of_step_self (step_of_stopped hs) k

/-! ### The status after an instruction (R31, R172, R190, R191) -/

@[simp] theorem blockingRead_status (r : ReadService) (s : State) : (blockingRead r s).status = s.status := by
  rw [blockingRead_frame]

@[simp] theorem putString_status (k : StringService) (s : State) : (putString k s).status = s.status := by
  rw [putString_frame]

@[simp] theorem loadFrom_status (dr : Reg) (a : Word) (s : State) : (loadFrom dr a s).status = s.status := by
  rw [loadFrom_eq, writeResult_status, memRead_status]

@[simp] theorem indirect_status (off : BitVec 9) (s : State) : (indirect off s).2.status = s.status :=
  memRead_status _ s

/-- The status an instruction leaves, from the status it finds. -/
def statusAfter : Instr → Status → Status
  | .trapHalt, _ => .dead
  | .rti, _ => .faulted
  | .res, _ => .faulted
  | .trapUndefined _, _ => .faulted
  | _, st => st

theorem exec_status {i : Instr} {s t : State} (h : exec i s = .next t) : t.status = statusAfter i s.status := by
  cases i with
  | rti | res | trapUndefined | trapHalt => cases h; rfl
  | br nzp off => rw [exec_br] at h; cases h; exact setPc_status _ s
  | addReg | addImm | andReg | andImm | not | lea => cases h; exact writeResult_status _ _ s
  | jsr | jsrr | jmp | st | str | trapOut => cases h; rfl
  | ld | ldr => cases h; exact loadFrom_status _ _ s
  | ldi dr off => cases h; exact (loadFrom_status dr _ _).trans (indirect_status off s)
  | sti sr off => cases h; exact indirect_status off s
  | trapGetc | trapIn => cases h; exact blockingRead_status _ _
  | trapPuts | trapPutsp => cases h; exact putString_status _ s

theorem exec_dead_iff {i : Instr} {s t : State} (ha : s.status = .alive) (h : exec i s = .next t) :
    t.status = .dead ↔ i = .trapHalt := by
  rw [exec_status h, ha]
  cases i <;> simp only [statusAfter, reduceCtorEq]

theorem exec_faulted_iff {i : Instr} {s t : State} (ha : s.status = .alive) (h : exec i s = .next t) :
    t.status = .faulted ↔ i = .rti ∨ i = .res ∨ ∃ v, i = .trapUndefined v := by
  rw [exec_status h, ha]
  cases i <;> simp [statusAfter]

/-- Settles O25: the status after an instruction is a function of the instruction and the status before. -/
theorem statusChangesOnlyByHaltOrFatalError : Obligations.StatusChangesOnlyByHaltOrFatalError := by
  unfold Obligations.StatusChangesOnlyByHaltOrFatalError
  exact fun i s t ha h => ⟨exec_dead_iff ha h, exec_faulted_iff ha h⟩

/-! ### The step in progress after an instruction (R42, R166) -/

@[simp] theorem loadFrom_hold (dr : Reg) (a : Word) (s : State) : (loadFrom dr a s).hold = s.hold := by
  rw [loadFrom_eq, writeResult_hold, memRead_hold]

@[simp] theorem indirect_hold (off : BitVec 9) (s : State) : (indirect off s).2.hold = s.hold := memRead_hold _ s

/-- Only the services that read a byte or write a string can be held. -/
theorem exec_hold {i : Instr} {s t : State} (hi : i ∉ [.trapGetc, .trapIn, .trapPuts, .trapPutsp])
    (h : exec i s = .next t) : t.hold = s.hold := by
  cases i with
  | trapGetc | trapIn | trapPuts | trapPutsp => simp at hi
  | br nzp off => rw [exec_br] at h; cases h; exact setPc_hold _ s
  | addReg | addImm | andReg | andImm | not | lea => cases h; exact writeResult_hold _ _ s
  | jsr | jsrr | jmp | st | str | trapOut | rti | res | trapUndefined | trapHalt => cases h; rfl
  | ld | ldr => cases h; exact loadFrom_hold _ _ s
  | ldi dr off => cases h; exact (loadFrom_hold dr _ _).trans (indirect_hold off s)
  | sti sr off => cases h; exact indirect_hold off s

/-! ### Memory keeps its canonical form -/

@[simp] theorem blockingRead_mem (r : ReadService) (s : State) : (blockingRead r s).mem = s.mem := by
  rw [blockingRead_frame]

@[simp] theorem putString_mem (k : StringService) (s : State) : (putString k s).mem = s.mem := by
  rw [putString_frame]

theorem wf_loadFrom (dr : Reg) (a : Word) {s : State} (hm : s.mem.wf) : (loadFrom dr a s).mem.wf := by
  rw [loadFrom_eq, writeResult_mem]; exact wf_memRead a hm

theorem wf_indirect (off : BitVec 9) {s : State} (hm : s.mem.wf) : (indirect off s).2.mem.wf := wf_memRead _ hm

theorem wf_exec {i : Instr} {s t : State} (hm : s.mem.wf) (h : exec i s = .next t) : t.mem.wf := by
  cases i with
  | br nzp off => rw [exec_br] at h; cases h; exact hm
  | addReg | addImm | andReg | andImm | not | lea | jsr | jsrr | jmp => cases h; exact hm
  | trapOut | rti | res | trapUndefined | trapHalt => cases h; exact hm
  | ld | ldr => cases h; exact wf_loadFrom _ _ hm
  | ldi dr off => cases h; exact wf_loadFrom dr _ (wf_indirect off hm)
  | st | str => cases h; exact wf_setWord _ _ hm
  | sti sr off => cases h; exact wf_setWord _ _ (wf_indirect off hm)
  | trapGetc => cases h; exact (blockingRead_mem _ s).symm ▸ hm
  | trapIn => cases h; exact (blockingRead_mem _ (out Config.inPrompt s)).symm ▸ hm
  | trapPuts | trapPutsp => cases h; exact (putString_mem _ s).symm ▸ hm

/-! ### The invariant at launch (R45, R220) -/

/-- Between two steps of the spec nothing is held, and three clauses of the invariant are left. -/
theorem State.Inv.of_no_hold {s : State} (hm : s.mem.wf) (hc : s.cond ∈ legalConds)
    (hf : s.fault.isSome ↔ s.status = .faulted) (hh : s.hold = none) : s.Inv where
  mem_wf := hm
  cond_legal := hc
  fault_iff := hf
  hold_alive hne := absurd hh hne
  endless k a hk := by rw [hh] at hk; cases hk

theorem inv_reset : State.reset.Inv := .of_no_hold wf_nil (by decide) (by decide) rfl

theorem inv_launchState (img : Image) : (launchState img).Inv := by
  have hm : (launchState img).mem.wf := wf_loadWords img.origin img.words wf_nil
  rw [launchState_frame]
  exact .of_no_hold hm inv_reset.cond_legal inv_reset.fault_iff rfl

/-- Settles O9: nothing is held and no fault recorded at reset, and loading keeps memory canonical. -/
theorem resetAndLaunchMeetInvariant : Obligations.ResetAndLaunchMeetInvariant := by
  unfold Obligations.ResetAndLaunchMeetInvariant
  exact ⟨inv_reset, inv_launchState⟩

/-- Settles O7: a launch leaves every field but `pc` and memory as at reset. -/
theorem launchStartsAtTheOrigin : Obligations.LaunchStartsAtTheOrigin := by
  unfold Obligations.LaunchStartsAtTheOrigin
  refine ⟨rfl, rfl, fun img => ?_⟩
  rw [launchState_frame]
  exact ⟨rfl, rfl, rfl, rfl, rfl, rfl⟩

/-! ### The invariant under the operations that hold a step -/

/-- A change of registers, `pc`, input and output touches no clause of the invariant. -/
theorem State.Inv.congr {s t : State} (hs : s.Inv) (hmem : t.mem = s.mem) (hcond : t.cond = s.cond)
    (hctl : SameControl s t) : t.Inv := by
  obtain ⟨hstatus, hfault, hhold⟩ := hctl
  exact {
    mem_wf := hmem ▸ hs.mem_wf
    cond_legal := hcond ▸ hs.cond_legal
    fault_iff := by rw [hfault, hstatus]; exact hs.fault_iff
    hold_alive := by rw [hhold, hstatus]; exact hs.hold_alive
    endless := by simp only [hhold, State.word, hmem]; exact hs.endless }

theorem inv_out (bs : List Byte) {s : State} (hs : s.Inv) : (out bs s).Inv := hs.congr rfl rfl ⟨rfl, rfl, rfl⟩

theorem inv_deliver (c : Byte) {s : State} (hs : s.Inv) : (deliver c s).Inv := hs.congr rfl rfl ⟨rfl, rfl, rfl⟩

/-- Holding a step of an ALIVE core keeps the invariant, if a string is held only without a zero word. -/
theorem State.Inv.with_hold {s : State} (hs : s.Inv) (ha : s.status = .alive) (d : Option Hold)
    (hend : ∀ k a, d = some (.string k a) → ∀ b, s.word b ≠ 0x0000#16) :
    ({ s with hold := d } : State).Inv where
  mem_wf := hs.mem_wf
  cond_legal := hs.cond_legal
  fault_iff := hs.fault_iff
  hold_alive _ := ha
  endless := hend

theorem inv_blockingRead (r : ReadService) {s : State} (hs : s.Inv) (ha : s.status = .alive) :
    (blockingRead r s).Inv := by
  have hheld := hs.with_hold ha (blockingRead r s).hold fun k a hk => by
    rcases blockingRead_hold r s with h | h <;> rw [h] at hk <;> cases hk
  exact hheld.congr (blockingRead_mem r s) (blockingRead_cond r s)
    ⟨blockingRead_status r s, blockingRead_fault r s, rfl⟩

theorem inv_putString (k : StringService) {s : State} (hs : s.Inv) (ha : s.status = .alive) : (putString k s).Inv := by
  rcases putString_cases k s with ⟨ws, -, h⟩ | ⟨hnone, h⟩
  · rw [h]; exact inv_out _ hs
  · rw [h]; exact hs.with_hold ha _ fun _ _ _ => (stringAt_eq_none_iff _ s).1 hnone

theorem inv_resume {d : Hold} {s : State} (hs : s.Inv) (ha : s.status = .alive) (hh : s.hold = some d) :
    (resume d s).Inv := by
  cases d with
  | read r => exact inv_blockingRead r hs ha
  | string k a =>
    have hnz := hs.endless k a hh
    rw [resume_string (hnz a)]
    exact inv_out _ (hs.with_hold ha _ fun _ _ _ => hnz)

/-! ### The invariant after a step -/

theorem legalConds_of_flagsOf (v : Word) : flagsOf v ∈ legalConds := List.mem_cons_of_mem _ (flagsOf_mem v)

theorem exec_cond_legal {i : Instr} {s t : State} (hc : s.cond ∈ legalConds) (h : exec i s = .next t) :
    t.cond ∈ legalConds := by
  cases hd : flagDest i with
  | some dr => rw [exec_cond_of_flagDest hd h]; exact legalConds_of_flagsOf _
  | none => rw [exec_cond_of_flagDest_none hd h]; exact hc

/-- An instruction run by an ALIVE core records a fault exactly when it leaves FAULTED. -/
theorem exec_fault_iff {i : Instr} {s t : State} (ha : s.status = .alive)
    (hf : s.fault.isSome ↔ s.status = .faulted) (h : exec i s = .next t) :
    t.fault.isSome ↔ t.status = .faulted := by
  constructor
  · intro hsome
    rcases exec_fault_cases h with hsame | ⟨-, rfl⟩ | ⟨-, rfl⟩ | ⟨v, -, rfl⟩
    · rw [hsame, hf, ha] at hsome; cases hsome
    all_goals exact raise_status _ s
  · intro hfaulted
    rcases (exec_faulted_iff ha h).1 hfaulted with rfl | rfl | ⟨v, rfl⟩ <;> cases h <;> rfl

theorem inv_exec {i : Instr} {s t : State} (hs : s.Inv) (ha : s.status = .alive) (hh : s.hold = none)
    (h : exec i s = .next t) : t.Inv := by
  by_cases hi : i ∈ [.trapGetc, .trapIn, .trapPuts, .trapPutsp]
  · simp only [List.mem_cons, List.not_mem_nil, or_false] at hi
    rcases hi with rfl | rfl | rfl | rfl
    · rw [exec_trapGetc] at h; cases h; exact inv_blockingRead _ hs ha
    · rw [exec_trapIn] at h; cases h; exact inv_blockingRead _ (inv_out _ hs) ha
    · rw [exec_trapPuts] at h; cases h; exact inv_putString _ hs ha
    · rw [exec_trapPutsp] at h; cases h; exact inv_putString _ hs ha
  · exact .of_no_hold (wf_exec hs.mem_wf h) (exec_cond_legal hs.cond_legal h) (exec_fault_iff ha hs.fault_iff h)
      ((exec_hold hi h).trans hh)

theorem inv_fetch {s : State} (hs : s.Inv) (hh : s.hold = none) : (fetch s).2.Inv := by
  refine .of_no_hold (wf_fetch hs.mem_wf) ?_ ?_ ((fetch_hold s).trans hh)
  · rw [fetch_cond]; exact hs.cond_legal
  · rw [fetch_fault, fetch_status]; exact hs.fault_iff

theorem inv_step {s t : State} (hs : s.Inv) (h : step s = .next t) : t.Inv := by
  rcases step_cases h with ⟨ha, hh, hexec⟩ | ⟨ha, d, hh, rfl⟩ | ⟨-, rfl⟩
  · exact inv_exec (inv_fetch hs hh) ((fetch_status s).trans ha) ((fetch_hold s).trans hh) hexec
  · exact inv_resume hs ha hh
  · exact hs

/-- Settles O14: fetch and instruction keep the invariant of a state with nothing held, and a held service goes on
only as a byte arrives or over words that are not zero. -/
theorem stepKeepsInvariant : Obligations.StepKeepsInvariant := by
  unfold Obligations.StepKeepsInvariant
  exact fun _ _ hs h => inv_step hs h

/-- Settles O15: by induction on how the state is reached. -/
theorem reachableStatesMeetInvariant : Obligations.ReachableStatesMeetInvariant := by
  unfold Obligations.ReachableStatesMeetInvariant
  intro s hs
  induction hs with
  | launched img _ _ => exact inv_launchState img
  | stepped s t _ ht ih => exact inv_step ih ht
  | delivered s c _ ih => exact inv_deliver c ih

/-! ### The first step after reset (R110, assumption 15) -/

/-- Settles O11: `pc` is not `KBSR_ADDR` after reset, so the fetch reads the word placed and polls nothing. -/
theorem placedWordRunsFirst : Obligations.PlacedWordRunsFirst := by
  unfold Obligations.PlacedWordRunsFirst
  intro w hw
  have hplaced : State.reset.withFetchWord 16 w = State.reset.setWord 0x0000#16 (BitVec.ofNat 16 w) := by
    rw [State.withFetchWord, Nat.mod_eq_of_lt (by omega)]; rfl
  have hfetch : fetch (State.reset.withFetchWord 16 w) =
      (BitVec.ofNat 16 w, (State.reset.withFetchWord 16 w).setPc 0x0001#16) := by
    have hpc : (State.reset.setWord 0x0000#16 (BitVec.ofNat 16 w)).pc ≠ kbsrAddr := by rw [setWord_pc]; decide
    rw [hplaced, fetch_eq, memRead_of_ne hpc]
    exact Prod.ext (word_setWord_same _ _ wf_nil) rfl
  rw [step_of_fetch rfl rfl, hfetch]

end Sys2Proof.Machine
end

section
/-! PROOFS. 10_state.md and 20_memory.md: the console streams (R40, R43), what prints (R53), what writes memory (R59),
and a store seen by the next fetch (R66). -/

namespace Sys2Proof.Machine

/-! ### The console streams (R40, R43) -/

/-- From `s` to `t` input was taken from the front only and output added at the end only. -/
def StreamsInOrder (s t : State) : Prop :=
  (∃ n, t.input = s.input.drop n) ∧ ∃ bs, t.output = s.output ++ bs

theorem StreamsInOrder.of_eq {s t : State} (hin : t.input = s.input) (hout : t.output = s.output) :
    StreamsInOrder s t :=
  ⟨⟨0, by rw [hin, List.drop_zero]⟩, ⟨[], by rw [hout, List.append_nil]⟩⟩

theorem StreamsInOrder.trans {s m t : State} (hm : StreamsInOrder s m) (ht : StreamsInOrder m t) :
    StreamsInOrder s t := by
  obtain ⟨⟨n, hin⟩, ⟨bs, hout⟩⟩ := hm
  obtain ⟨⟨n', hin'⟩, ⟨bs', hout'⟩⟩ := ht
  exact ⟨⟨n + n', by rw [hin', hin, List.drop_drop]⟩, ⟨bs ++ bs', by rw [hout', hout, List.append_assoc]⟩⟩

theorem streams_out (bs : List Byte) (s : State) : StreamsInOrder s (out bs s) :=
  ⟨⟨0, by rw [out_input, List.drop_zero]⟩, ⟨bs, out_output bs s⟩⟩

/-- A poll takes the first byte or none. -/
theorem keyboardPoll_input (s : State) :
    (keyboardPoll s).input = s.input ∨ (keyboardPoll s).input = s.input.drop 1 := by
  cases hin : s.input with
  | nil => rw [keyboardPoll_nil hin]; exact .inl hin
  | cons c rest =>
    cases hans : nextAnswer s with
    | false => rw [keyboardPoll_unavailable hin hans]; exact .inl hin
    | true => rw [keyboardPoll_available hin hans]; exact .inr rfl

theorem streams_memRead (a : Word) (s : State) : StreamsInOrder s (memRead a s).2 := by
  by_cases ha : a = kbsrAddr
  · have hout := memRead_output a s
    subst ha
    rw [memRead_kbsr] at hout ⊢
    rcases keyboardPoll_input s with hin | hin
    · exact .of_eq hin hout
    · exact ⟨⟨1, hin⟩, ⟨[], by rw [hout, List.append_nil]⟩⟩
  · rw [memRead_of_ne ha]; exact .of_eq rfl rfl

theorem streams_fetch (s : State) : StreamsInOrder s (fetch s).2 := by
  rw [fetch_eq]; exact streams_memRead s.pc s

theorem streams_loadFrom (dr : Reg) (a : Word) (s : State) : StreamsInOrder s (loadFrom dr a s) := streams_memRead a s

theorem streams_blockingRead (r : ReadService) (s : State) : StreamsInOrder s (blockingRead r s) := by
  cases hin : s.input with
  | nil => rw [blockingRead_nil r hin]; exact .of_eq rfl rfl
  | cons c rest =>
    rw [blockingRead_cons r hin]
    have hdrop : rest = s.input.drop 1 := by rw [hin]; rfl
    cases r with
    | getc => exact ⟨⟨1, hdrop⟩, ⟨[], (List.append_nil _).symm⟩⟩
    | inEcho => exact ⟨⟨1, hdrop⟩, ⟨[c], rfl⟩⟩

theorem streams_putString (k : StringService) (s : State) : StreamsInOrder s (putString k s) := by
  rcases putString_cases k s with ⟨ws, -, h⟩ | ⟨-, h⟩
  · rw [h]; exact streams_out _ s
  · rw [h]; exact .of_eq rfl rfl

theorem streams_resume (d : Hold) (s : State) : StreamsInOrder s (resume d s) := by
  cases d with
  | read r => exact streams_blockingRead r s
  | string k a =>
    by_cases hz : s.word a = 0x0000#16
    · rw [resume, if_pos hz]; exact .of_eq rfl rfl
    · rw [resume_string hz]; exact streams_out _ { s with hold := some (.string k (a + 1#16)) }

theorem streams_exec {i : Instr} {s t : State} (h : exec i s = .next t) : StreamsInOrder s t := by
  cases i with
  | br nzp off => rw [exec_br] at h; cases h; exact .of_eq rfl rfl
  | addReg | addImm | andReg | andImm | not | lea | jsr | jsrr | jmp => cases h; exact .of_eq rfl rfl
  | st | str | rti | res | trapUndefined => cases h; exact .of_eq rfl rfl
  | ld | ldr => cases h; exact streams_loadFrom _ _ s
  | ldi dr off => cases h; exact (streams_memRead _ s).trans (streams_loadFrom dr _ _)
  | sti sr off => cases h; exact streams_memRead _ s
  | trapGetc => cases h; exact streams_blockingRead .getc s
  | trapIn => cases h; exact (streams_out _ s).trans (streams_blockingRead .inEcho _)
  | trapOut => cases h; exact streams_out _ s
  | trapHalt => cases h; exact streams_out _ s
  | trapPuts | trapPutsp => cases h; exact streams_putString _ s

/-- Settles O23: fetch, instruction and held service each keep the streams in order. -/
theorem consoleStreamsAreInOrder : Obligations.ConsoleStreamsAreInOrder := by
  unfold Obligations.ConsoleStreamsAreInOrder
  intro s t h
  rcases step_cases h with ⟨-, -, hexec⟩ | ⟨-, d, -, rfl⟩ | ⟨-, rfl⟩
  · exact (streams_fetch s).trans (streams_exec hexec)
  · exact streams_resume d s
  · exact StreamsInOrder.of_eq rfl rfl

/-! ### What prints (R53) -/

@[simp] theorem loadFrom_output (dr : Reg) (a : Word) (s : State) : (loadFrom dr a s).output = s.output := by
  rw [loadFrom_eq, writeResult_output, memRead_output]

@[simp] theorem indirect_output (off : BitVec 9) (s : State) : (indirect off s).2.output = s.output :=
  memRead_output _ s

/-- GETC does not echo. -/
theorem blockingRead_getc_output (s : State) : (blockingRead .getc s).output = s.output := by
  cases hin : s.input with
  | nil => rw [blockingRead_nil _ hin]
  | cons c rest => rw [blockingRead_cons _ hin]; rfl

theorem exec_output_of_not_printing {i : Instr} {s t : State}
    (hi : i ∉ [.trapOut, .trapPuts, .trapIn, .trapPutsp, .trapHalt]) (h : exec i s = .next t) :
    t.output = s.output := by
  cases i with
  | trapOut | trapPuts | trapIn | trapPutsp | trapHalt => simp at hi
  | br nzp off => rw [exec_br] at h; cases h; rfl
  | addReg | addImm | andReg | andImm | not | lea | jsr | jsrr | jmp => cases h; rfl
  | st | str | rti | res | trapUndefined => cases h; rfl
  | ld | ldr => cases h; exact loadFrom_output _ _ s
  | ldi dr off => cases h; exact (loadFrom_output dr _ _).trans (indirect_output off s)
  | sti sr off => cases h; exact indirect_output off s
  | trapGetc => cases h; exact blockingRead_getc_output s

/-- Settles O24: neither the fetch nor any other instruction touches the output. -/
theorem onlyTrapServicesPrint : Obligations.OnlyTrapServicesPrint := by
  unfold Obligations.OnlyTrapServicesPrint
  intro s t ha hh h hchanged
  rw [step_of_fetch ha hh] at h
  by_contra hi
  exact hchanged ((exec_output_of_not_printing hi h).trans (fetch_output s))

/-! ### What writes memory (R59) -/

/-- Every memory word but the two of the keyboard is the same. -/
def SameMemoryButKeyboard (s t : State) : Prop :=
  ∀ a : Word, a ≠ kbsrAddr → a ≠ kbdrAddr → t.word a = s.word a

theorem sameMemoryButKeyboard_keyboardPoll (s : State) : SameMemoryButKeyboard s (keyboardPoll s) := by
  intro a hsr hdr
  cases hin : s.input with
  | nil => rw [keyboardPoll_nil hin, word_setWord_ne hsr.symm]
  | cons c rest =>
    cases hans : nextAnswer s with
    | false => rw [keyboardPoll_unavailable hin hans, word_setWord_ne hsr.symm]; rfl
    | true => rw [keyboardPoll_available hin hans, word_setWord_ne hdr.symm, word_setWord_ne hsr.symm]; rfl

theorem sameMemoryButKeyboard_memRead (a : Word) (s : State) : SameMemoryButKeyboard s (memRead a s).2 := by
  by_cases ha : a = kbsrAddr
  · subst ha; rw [memRead_kbsr]; exact sameMemoryButKeyboard_keyboardPoll s
  · rw [memRead_of_ne ha]; exact fun _ _ _ => rfl

theorem sameMemoryButKeyboard_of_mem_eq {s t : State} (h : t.mem = s.mem) : SameMemoryButKeyboard s t :=
  fun a _ _ => by rw [State.word, State.word, h]

/-- No TRAP writes memory (R161). -/
theorem exec_trap_mem {i : Instr} {s t : State} (hi : i.opcode = .trap) (h : exec i s = .next t) :
    t.mem = s.mem := by
  cases i with
  | trapGetc => cases h; exact blockingRead_mem .getc s
  | trapIn => cases h; exact blockingRead_mem .inEcho (out Config.inPrompt s)
  | trapPuts | trapPutsp => cases h; exact putString_mem _ s
  | trapOut | trapHalt | trapUndefined => cases h; rfl
  | _ => cases hi

theorem exec_sameMemoryButKeyboard {i : Instr} {s t : State} (hi : i.opcode ∉ [.st, .str, .sti])
    (h : exec i s = .next t) : SameMemoryButKeyboard s t := by
  cases i with
  | st | str | sti => simp [Instr.opcode] at hi
  | br nzp off => rw [exec_br] at h; cases h; exact sameMemoryButKeyboard_of_mem_eq rfl
  | addReg | addImm | andReg | andImm | not | lea | jsr | jsrr | jmp | rti | res =>
    cases h; exact sameMemoryButKeyboard_of_mem_eq rfl
  | ld | ldr => cases h; exact sameMemoryButKeyboard_memRead _ s
  | ldi dr off =>
    cases h
    intro a hsr hdr
    exact (sameMemoryButKeyboard_memRead _ _ a hsr hdr).trans (sameMemoryButKeyboard_memRead _ s a hsr hdr)
  | trapGetc | trapOut | trapPuts | trapIn | trapPutsp | trapHalt | trapUndefined =>
    exact sameMemoryButKeyboard_of_mem_eq (exec_trap_mem rfl h)

/-- Settles O22: what is no store reads memory at most, and a read writes the keyboard's words at most. -/
theorem onlyStoresAndPollsWriteMemory : Obligations.OnlyStoresAndPollsWriteMemory := by
  unfold Obligations.OnlyStoresAndPollsWriteMemory
  exact fun i s t hi h => exec_sameMemoryButKeyboard hi h

/-! ### A store and the next fetch (R66) -/

/-- A fetch at the address just stored to, where it does not poll, reads the word stored. -/
theorem fetch_fst_memWrite {a v : Word} {s : State} (hm : s.mem.wf) (hpc : (memWrite a v s).pc ≠ kbsrAddr)
    (ha : (memWrite a v s).pc = a) : (fetch (memWrite a v s)).1 = v := by
  rw [fetch_fst_of_ne hpc, ha]
  exact word_setWord_same a v hm

/-- Settles O17: each of the three ends in a store of `SR`, at the address its address form gives. -/
theorem storeIsSeenByTheNextFetch : Obligations.StoreIsSeenByTheNextFetch := by
  unfold Obligations.StoreIsSeenByTheNextFetch
  intro s t sr base off9 off6 hm hpc
  refine ⟨fun h ha => ?st, fun h ha => ?str, fun h ha => ?sti⟩
  case st => rw [exec_st] at h; cases h; exact fetch_fst_memWrite hm hpc ha
  case str => rw [exec_str] at h; cases h; exact fetch_fst_memWrite hm hpc ha
  case sti => rw [exec_sti] at h; cases h; exact fetch_fst_memWrite (wf_indirect off9 hm) hpc ha

end Sys2Proof.Machine
end

section
/-! PROOFS. 10_state.md: the registers an instruction reads and writes (R21), and that only BR reads the flags (R30). -/

namespace Sys2Proof.Machine

/-! ### The registers an instruction writes (R21) -/

theorem sameRegsExcept_loadFrom (dr : Reg) (a : Word) (s : State) : SameRegsExcept [dr] s (loadFrom dr a s) := by
  obtain ⟨-, hregs, -⟩ := loadFrom_frame dr a s
  exact hregs

theorem sameRegsExcept_blockingRead (r : ReadService) (s : State) : SameRegsExcept [0] s (blockingRead r s) :=
  fun _ hd => blockingRead_reg_ne r (fun h => hd (List.mem_singleton.2 h)) s

theorem putString_reg (k : StringService) (s : State) (r : Reg) : (putString k s).reg r = s.reg r := by
  rw [putString_frame]; rfl

theorem exec_sameRegsExcept {i : Instr} {s t : State} (h : exec i s = .next t) :
    SameRegsExcept (writtenRegs i) s t := by
  cases i with
  | br nzp off => rw [exec_br] at h; cases h; exact fun r _ => reg_setPc _ s r
  | addReg | addImm | andReg | andImm | not | lea => cases h; exact sameRegsExcept_writeResult _ _ s
  | ld | ldr => cases h; exact sameRegsExcept_loadFrom _ _ s
  | ldi dr off => cases h; exact (sameRegsExcept_loadFrom dr _ _).of_reg_eq (memRead_reg _ s)
  | jsr | jsrr => cases h; exact (setPc_link_frame _ s).1
  | jmp | st | str | rti | res | trapOut | trapHalt | trapUndefined => cases h; exact fun _ _ => rfl
  | sti sr off => cases h; exact fun r _ => memRead_reg _ s r
  | trapGetc => cases h; exact sameRegsExcept_blockingRead .getc s
  | trapIn => cases h; exact sameRegsExcept_blockingRead .inEcho (out Config.inPrompt s)
  | trapPuts | trapPutsp => cases h; exact fun r _ => putString_reg _ s r

/-! ### Reads of memory under other registers and flags -/

/-- The state with other registers and flags. -/
def State.withRegs (x : Vector Word 8) (c : BitVec 3) (s : State) : State := { s with x := x, cond := c }

theorem keyboardPoll_withRegs (x : Vector Word 8) (c : BitVec 3) (s : State) :
    keyboardPoll (s.withRegs x c) = (keyboardPoll s).withRegs x c := by
  cases hin : s.input with
  | nil => rw [keyboardPoll_nil hin, keyboardPoll_nil (s := s.withRegs x c) hin]; rfl
  | cons b rest =>
    cases hans : nextAnswer s with
    | false =>
      rw [keyboardPoll_unavailable hin hans, keyboardPoll_unavailable (s := s.withRegs x c) hin hans]; rfl
    | true => rw [keyboardPoll_available hin hans, keyboardPoll_available (s := s.withRegs x c) hin hans]; rfl

/-- `MemRead` depends on memory and the input only. -/
theorem memRead_withRegs (a : Word) (x : Vector Word 8) (c : BitVec 3) (s : State) :
    memRead a (s.withRegs x c) = ((memRead a s).1, (memRead a s).2.withRegs x c) := by
  by_cases ha : a = kbsrAddr
  · subst ha; rw [memRead_kbsr, memRead_kbsr, keyboardPoll_withRegs]; rfl
  · rw [memRead_of_ne ha, memRead_of_ne ha]; rfl

theorem memRead_setReg (a : Word) (r : Reg) (v : Word) (s : State) :
    memRead a (s.setReg r v) = ((memRead a s).1, (memRead a s).2.setReg r v) := by
  have hset : (memRead a s).2.setReg r v = (memRead a s).2.withRegs (s.x.set r v) s.cond := by
    rw [State.setReg, State.withRegs, memRead_x, ← memRead_cond a s]
  rw [hset]
  exact memRead_withRegs a (s.x.set r v) s.cond s

theorem indirect_setReg (off : BitVec 9) (r : Reg) (v : Word) (s : State) :
    indirect off (s.setReg r v) = ((indirect off s).1, (indirect off s).2.setReg r v) := memRead_setReg _ r v s

theorem memRead_setCond (a : Word) (c : BitVec 3) (s : State) :
    memRead a (s.setCond c) = ((memRead a s).1, (memRead a s).2.setCond c) := by
  have hset : (memRead a s).2.setCond c = (memRead a s).2.withRegs s.x c := by
    rw [State.setCond, State.withRegs, ← memRead_x a s]
  rw [hset]
  exact memRead_withRegs a s.x c s

theorem stringWords_congr {s t : State} (h : ∀ b, t.word b = s.word b) (fuel : Nat) (a : Word) :
    stringWords t fuel a = stringWords s fuel a := by
  induction fuel generalizing a with
  | zero => rfl
  | succ fuel ih => rw [stringWords, stringWords, h a, ih]

/-- The string at an address depends on memory only. -/
theorem stringAt_congr {s t : State} (h : ∀ b, t.word b = s.word b) (a : Word) : stringAt a t = stringAt a s :=
  stringWords_congr h 65536 a

/-! ### Only BR reads the flags (R30) -/

theorem indirect_setCond (off : BitVec 9) (c : BitVec 3) (s : State) :
    indirect off (s.setCond c) = ((indirect off s).1, (indirect off s).2.setCond c) := memRead_setCond _ c s

theorem writeResult_setCond (dr : Reg) (v : Word) (c : BitVec 3) (s : State) :
    writeResult dr v (s.setCond c) = writeResult dr v s := rfl

theorem loadFrom_setCond (dr : Reg) (a : Word) (c : BitVec 3) (s : State) :
    loadFrom dr a (s.setCond c) = loadFrom dr a s := by
  rw [loadFrom_eq, loadFrom_eq, memRead_setCond, writeResult_setCond]

theorem blockingRead_setCond (r : ReadService) (c : BitVec 3) (s : State) :
    blockingRead r (s.setCond c) = (blockingRead r s).setCond c := by
  cases hin : s.input with
  | nil => rw [blockingRead_nil r hin, blockingRead_nil r (s := s.setCond c) hin]; rfl
  | cons b rest => rw [blockingRead_cons r hin, blockingRead_cons r (s := s.setCond c) hin]; cases r <;> rfl

theorem putString_setCond (k : StringService) (c : BitVec 3) (s : State) :
    putString k (s.setCond c) = (putString k s).setCond c := by
  have hstr : stringAt ((s.setCond c).reg 0) (s.setCond c) = stringAt (s.reg 0) s :=
    stringAt_congr (word_setCond c s) (s.reg 0)
  rw [putString, putString, hstr]
  cases stringAt (s.reg 0) s <;> rfl

theorem exec_setCond {i : Instr} {s t : State} (c : BitVec 3) (hi : ∀ nzp off, i ≠ .br nzp off)
    (h : exec i s = .next t) :
    exec i (s.setCond c) = .next (if (flagDest i).isSome then t else t.setCond c) := by
  cases i with
  | br nzp off => exact absurd rfl (hi nzp off)
  | addReg | addImm | andReg | andImm | not | lea => cases h; rfl
  | jsr | jsrr | jmp | st | str | rti | res | trapOut | trapHalt | trapUndefined => cases h; rfl
  | ld dr off => cases h; exact congrArg Host.Outcome.next (loadFrom_setCond dr _ c s)
  | ldr dr base off => cases h; exact congrArg Host.Outcome.next (loadFrom_setCond dr _ c s)
  | ldi dr off =>
    cases h
    rw [exec, execLdi, indirect_setCond]
    exact congrArg Host.Outcome.next (loadFrom_setCond dr _ c _)
  | sti sr off =>
    cases h
    rw [exec, execSti, indirect_setCond]
    rfl
  | trapGetc => cases h; exact congrArg Host.Outcome.next (blockingRead_setCond .getc c s)
  | trapIn => cases h; exact congrArg Host.Outcome.next (blockingRead_setCond .inEcho c (out Config.inPrompt s))
  | trapPuts => cases h; exact congrArg Host.Outcome.next (putString_setCond .puts c s)
  | trapPutsp => cases h; exact congrArg Host.Outcome.next (putString_setCond .putsp c s)

/-- Settles O19: the results replace the flags whole, and every other operation carries them along. -/
theorem onlyBranchReadsTheFlags : Obligations.OnlyBranchReadsTheFlags := by
  unfold Obligations.OnlyBranchReadsTheFlags
  exact fun i s t c hi h => exec_setCond c hi h

/-! ### Only the listed registers are read (R21) -/

/-- What is left of a change of `r` once the listed registers are written. -/
def keepReg (ds : List Reg) (r : Reg) (v : Word) (t : State) : State := if r ∈ ds then t else t.setReg r v

theorem keepReg_nil (r : Reg) (v : Word) (t : State) : keepReg [] r v t = t.setReg r v := if_neg List.not_mem_nil

/-- A write of `d` undoes an earlier change of `d`, and comes before a change of another register as well as after. -/
theorem setReg_setReg_eq_keepReg (d r : Reg) (w v : Word) (s : State) :
    (s.setReg r v).setReg d w = keepReg [d] r v (s.setReg d w) := by
  rw [keepReg]
  split
  · next h => rw [List.mem_singleton.1 h, setReg_setReg]
  · next h => rw [setReg_comm (fun e => h (List.mem_singleton.2 e))]

theorem setCC_keepReg (w : Word) (ds : List Reg) (r : Reg) (v : Word) (s : State) :
    setCC w (keepReg ds r v s) = keepReg ds r v (setCC w s) := by
  unfold keepReg; split <;> rfl

theorem setPc_keepReg (w : Word) (ds : List Reg) (r : Reg) (v : Word) (s : State) :
    (keepReg ds r v s).setPc w = keepReg ds r v (s.setPc w) := by
  unfold keepReg; split <;> rfl

theorem writeResult_setReg (dr r : Reg) (w v : Word) (s : State) :
    writeResult dr w (s.setReg r v) = keepReg [dr] r v (writeResult dr w s) := by
  rw [writeResult, setReg_setReg_eq_keepReg, setCC_keepReg]; rfl

theorem loadFrom_setReg (dr r : Reg) (a v : Word) (s : State) :
    loadFrom dr a (s.setReg r v) = keepReg [dr] r v (loadFrom dr a s) := by
  rw [loadFrom_eq, loadFrom_eq, memRead_setReg, writeResult_setReg]

theorem link_setReg (r : Reg) (v : Word) (s : State) : link (s.setReg r v) = keepReg [7] r v (link s) :=
  setReg_setReg_eq_keepReg 7 r s.pc v s

/-- The base register of JSRR is R7 as linked, or it is as it was. -/
theorem link_reg_congr {s t : State} {base : Reg} (hpc : t.pc = s.pc) (hbase : t.reg base = s.reg base) :
    (link t).reg base = (link s).reg base := by
  rw [link, link, reg_setReg, reg_setReg, hpc, hbase]

/-- A blocking read that completes overwrites R0. -/
theorem blockingRead_setReg (k : ReadService) (r : Reg) (v : Word) {s : State}
    (hdone : (blockingRead k s).hold = none) :
    blockingRead k (s.setReg r v) = keepReg [0] r v (blockingRead k s) := by
  cases hin : s.input with
  | nil => rw [blockingRead_nil k hin] at hdone; cases hdone
  | cons b rest =>
    rw [blockingRead_cons k hin, blockingRead_cons k (s := s.setReg r v) hin]
    cases k with
    | getc => exact setReg_setReg_eq_keepReg 0 r (zext16 b) v { s with input := rest, hold := none }
    | inEcho =>
      exact setReg_setReg_eq_keepReg 0 r (zext16 b) v (out [b] { s with input := rest, hold := none })

theorem putString_setReg (k : StringService) {r : Reg} (hr : r ≠ 0) (v : Word) (s : State) :
    putString k (s.setReg r v) = (putString k s).setReg r v := by
  have hreg : (s.setReg r v).reg 0 = s.reg 0 := reg_setReg_ne hr v s
  rw [putString, putString, hreg, stringAt_congr (word_setReg r v s)]
  cases stringAt (s.reg 0) s <;> rfl

/-- Where an instruction completes, a register it does not read matters to itself only. -/
theorem exec_setReg {i : Instr} {s t : State} {r : Reg} (v : Word) (hr : r ∉ readRegs i) (hdone : t.hold = none)
    (h : exec i s = .next t) : exec i (s.setReg r v) = .next (keepReg (writtenRegs i) r v t) := by
  have hreg : ∀ d ∈ readRegs i, (s.setReg r v).reg d = s.reg d :=
    fun d hd => reg_setReg_ne (fun e => hr (by rw [e]; exact hd)) v s
  have hnone : writtenRegs i = [] → keepReg (writtenRegs i) r v t = t.setReg r v :=
    fun hw => by rw [hw, keepReg_nil]
  cases i with
  | addReg dr sr1 sr2 =>
    rw [exec_addReg] at h ⊢; cases h
    rw [hreg sr1 (.head _), hreg sr2 (.tail _ (.head _)), writeResult_setReg]; rfl
  | andReg dr sr1 sr2 =>
    rw [exec_andReg] at h ⊢; cases h
    rw [hreg sr1 (.head _), hreg sr2 (.tail _ (.head _)), writeResult_setReg]; rfl
  | addImm dr sr1 imm5 =>
    rw [exec_addImm] at h ⊢; cases h
    rw [hreg sr1 (.head _), writeResult_setReg]; rfl
  | andImm dr sr1 imm5 =>
    rw [exec_andImm] at h ⊢; cases h
    rw [hreg sr1 (.head _), writeResult_setReg]; rfl
  | not dr sr =>
    rw [exec_not] at h ⊢; cases h
    rw [hreg sr (.head _), writeResult_setReg]; rfl
  | lea dr off =>
    rw [exec_lea] at h ⊢; cases h
    exact congrArg Host.Outcome.next (writeResult_setReg dr r _ v s)
  | ld dr off =>
    rw [exec_ld] at h ⊢; cases h
    exact congrArg Host.Outcome.next (loadFrom_setReg dr r _ v s)
  | ldr dr base off =>
    rw [exec_ldr] at h ⊢; cases h
    rw [basePlusOffset, hreg base (.head _), loadFrom_setReg]; rfl
  | ldi dr off =>
    rw [exec_ldi] at h ⊢; cases h
    rw [indirect_setReg, loadFrom_setReg]; rfl
  | st sr off =>
    rw [exec_st] at h ⊢; cases h
    rw [hnone rfl, hreg sr (.head _)]; rfl
  | str sr base off =>
    rw [exec_str] at h ⊢; cases h
    rw [hnone rfl, basePlusOffset, hreg sr (.head _), hreg base (.tail _ (.head _))]; rfl
  | sti sr off =>
    rw [exec_sti] at h ⊢; cases h
    rw [hnone rfl, hreg sr (.head _), indirect_setReg]; rfl
  | br nzp off => rw [exec_br] at h ⊢; cases h; rw [hnone rfl]; rfl
  | jmp base =>
    rw [exec_jmp] at h ⊢; cases h
    rw [hnone rfl, hreg base (.head _)]; rfl
  | jsr off =>
    rw [exec_jsr] at h ⊢; cases h
    rw [link_setReg, setPc_keepReg]; rfl
  | jsrr base =>
    rw [exec_jsrr] at h ⊢; cases h
    rw [link_reg_congr (setReg_pc r v s) (hreg base (.head _)), link_setReg, setPc_keepReg]; rfl
  | trapGetc =>
    rw [exec_trapGetc] at h ⊢; cases h
    exact congrArg Host.Outcome.next (blockingRead_setReg .getc r v hdone)
  | trapIn =>
    rw [exec_trapIn] at h ⊢; cases h
    exact congrArg Host.Outcome.next (blockingRead_setReg .inEcho r v hdone)
  | trapOut =>
    rw [exec_trapOut] at h ⊢; cases h
    rw [hnone rfl, hreg 0 (.head _)]; rfl
  | trapPuts =>
    rw [exec_trapPuts] at h ⊢; cases h
    rw [hnone rfl, putString_setReg .puts (List.ne_of_not_mem_cons hr)]
  | trapPutsp =>
    rw [exec_trapPutsp] at h ⊢; cases h
    rw [hnone rfl, putString_setReg .putsp (List.ne_of_not_mem_cons hr)]
  | trapHalt => rw [exec_trapHalt] at h ⊢; cases h; rw [hnone rfl]; rfl
  | rti => rw [exec_rti] at h ⊢; cases h; rw [hnone rfl]; rfl
  | res => rw [exec_res] at h ⊢; cases h; rw [hnone rfl]; rfl
  | trapUndefined => rw [exec_trapUndefined] at h ⊢; cases h; rw [hnone rfl]; rfl

/-- Settles O21: what an operation writes is listed, and it carries a change of an unlisted register along or
overwrites it. -/
theorem registersReadAndWritten : Obligations.RegistersReadAndWritten := by
  unfold Obligations.RegistersReadAndWritten
  exact fun i s t h => ⟨exec_sameRegsExcept h, fun r v hr hdone => exec_setReg v hr hdone h⟩

/-! ### What TRAP leaves alone (R161) -/

/-- No service is listed with R7 or a flag destination, and none is a jump. -/
theorem trap_writes_no_link {i : Instr} (hi : i.opcode = .trap) (s : State) :
    7 ∉ writtenRegs i ∧ flagDest i = none ∧ nextPc i s = s.pc := by
  cases i with
  | trapGetc | trapIn => exact ⟨by decide, rfl, rfl⟩
  | trapOut | trapPuts | trapPutsp | trapHalt | trapUndefined => exact ⟨List.not_mem_nil, rfl, rfl⟩
  | _ => cases hi

/-- Settles O44: from the registers, the flags and the target listed for TRAP, and that it writes no memory. -/
theorem trapDoesNotLinkOrJump : Obligations.TrapDoesNotLinkOrJump := by
  unfold Obligations.TrapDoesNotLinkOrJump
  intro i s t hi h
  obtain ⟨hseven, hflags, hpc⟩ := trap_writes_no_link hi s
  exact ⟨exec_sameRegsExcept h 7 hseven, (exec_pc h).trans hpc, exec_cond_of_flagDest_none hflags h,
    exec_trap_mem hi h⟩

end Sys2Proof.Machine
end

section
/-! PROOFS. 20_memory.md section 1: the keyboard poll as an LDI and an LDR see it (R51, R55). -/

namespace Sys2Proof.Machine

/-! ### The outcomes of a poll (R51) -/

theorem readEffect_kbsr {s t : State} : ReadEffect kbsrAddr s t ↔ PollEffect s t := by
  rw [ReadEffect, if_pos rfl]

theorem PollEffect.of_available {s t : State} {c : Byte} {rest : List Byte} (h : PollEffect s t)
    (hin : s.input = c :: rest) (hans : nextAnswer s = true) :
    OneDraw s t ∧ t.input = rest ∧ t.word kbsrAddr = s.word kbsrAddr ||| 0x8000#16 ∧
      t.word kbdrAddr = c.setWidth 16 := by
  rw [PollEffect, hin] at h
  simp only [hans, if_true] at h
  obtain ⟨hdraw, hinput, hstatus, hdata, -⟩ := h
  exact ⟨hdraw, hinput, hstatus, hdata⟩

theorem PollEffect.of_nothing {s t : State} (h : PollEffect s t) (hno : s.input = [] ∨ nextAnswer s = false) :
    t.input = s.input ∧ t.word kbsrAddr = 0x0000#16 ∧ t.word kbdrAddr = s.word kbdrAddr := by
  cases hin : s.input with
  | nil =>
    rw [PollEffect, hin] at h
    obtain ⟨⟨hinput, -⟩, hstatus, hothers⟩ := h
    exact ⟨hinput.trans hin, hstatus, hothers _ kbsrAddr_ne_kbdrAddr.symm⟩
  | cons c rest =>
    have hans : nextAnswer s = false := hno.resolve_left (by rw [hin]; exact List.cons_ne_nil c rest)
    rw [PollEffect, hin] at h
    simp only [hans, Bool.false_eq_true, if_false] at h
    obtain ⟨-, hinput, hstatus, hothers⟩ := h
    exact ⟨hinput, hstatus, hothers _ kbsrAddr_ne_kbdrAddr.symm⟩

/-- A status word with its ready bit set is negative. -/
theorem flagsOf_ready (v : Word) : flagsOf (v ||| 0x8000#16) = flNeg := by
  refine flagsOf_of_toInt_neg ((getLsbD_fifteen_iff_toInt_neg _).1 ?_)
  rw [BitVec.getLsbD_or, Bool.or_eq_true]
  exact .inr rfl

/-! ### An LDI through a pointer to the status word -/

theorem exec_ldi_of_ne {off : BitVec 9} {s : State} (h : pcRelative off s ≠ kbsrAddr) (dr : Reg) :
    exec (.ldi dr off) s = .next (loadFrom dr (s.word (pcRelative off s)) s) := by
  rw [exec_ldi, indirect_eq, memRead_of_ne h]

/-- What a load from the status word has to do with the poll. -/
theorem pollEffect_loadFrom (dr : Reg) {s : State} (hm : s.mem.wf) :
    PollEffect s (loadFrom dr kbsrAddr s) ∧
      (loadFrom dr kbsrAddr s).reg dr = (loadFrom dr kbsrAddr s).word kbsrAddr ∧
      (loadFrom dr kbsrAddr s).cond = flagsOf ((loadFrom dr kbsrAddr s).word kbsrAddr) := by
  obtain ⟨hread, hreg, hcond, -⟩ := loadFrom_effect dr kbsrAddr hm
  exact ⟨readEffect_kbsr.1 hread, hreg, hcond⟩

/-- Settles O36: the second read of the LDI polls and finds a byte. -/
theorem keyboardPollDeliversAByte : Obligations.KeyboardPollDeliversAByte := by
  unfold Obligations.KeyboardPollDeliversAByte
  intro dr off s c rest hm hptr hword hin hans
  obtain ⟨hpoll, hreg, hcond⟩ := pollEffect_loadFrom dr hm
  obtain ⟨-, hinput, hstatus, hdata⟩ := hpoll.of_available hin hans
  refine ⟨loadFrom dr kbsrAddr s, ?_, hreg.trans hstatus, ?_, hstatus, hdata, hinput⟩
  · rw [exec_ldi_of_ne hptr, hword]
  · rw [hcond, hstatus, flagsOf_ready]; rfl

/-- Settles O37: the second read of the LDI polls and finds nothing. -/
theorem keyboardPollFindsNothing : Obligations.KeyboardPollFindsNothing := by
  unfold Obligations.KeyboardPollFindsNothing
  intro dr off s hm hptr hword hno
  obtain ⟨hpoll, hreg, hcond⟩ := pollEffect_loadFrom dr hm
  obtain ⟨hinput, hstatus, hdata⟩ := hpoll.of_nothing hno
  refine ⟨loadFrom dr kbsrAddr s, ?_, hreg.trans hstatus, ?_, hstatus, hdata, hinput⟩
  · rw [exec_ldi_of_ne hptr, hword]
  · rw [hcond, hstatus]; rfl

/-! ### Two polls in a row (R55) -/

theorem nextAnswer_of_availability {s : State} {b : Bool} {bs : List Bool} (h : s.availability = b :: bs) :
    nextAnswer s = b := by
  rw [nextAnswer, h, List.headD_cons]

/-- Settles O38: the first LDR leaves its base, the second byte and the second answer for the second one. -/
theorem secondPollOverwritesTheFirstByte : Obligations.SecondPollOverwritesTheFirstByte := by
  unfold Obligations.SecondPollOverwritesTheFirstByte
  intro dr base off s c₁ c₂ rest answers hm hne hea hin havail
  obtain ⟨hpoll, -⟩ := pollEffect_loadFrom dr hm
  obtain ⟨⟨havail', -⟩, hin', -⟩ := hpoll.of_available hin (nextAnswer_of_availability havail)
  rw [havail, List.tail_cons] at havail'
  have hbase : (loadFrom dr kbsrAddr s).reg base = s.reg base :=
    sameRegsExcept_loadFrom dr kbsrAddr s base (fun h => hne (List.mem_singleton.1 h).symm)
  have hea' : basePlusOffset base off (loadFrom dr kbsrAddr s) = kbsrAddr := by
    rw [basePlusOffset, hbase]; exact hea
  obtain ⟨hpoll', -⟩ := pollEffect_loadFrom dr (wf_loadFrom dr kbsrAddr hm)
  obtain ⟨-, hinput, -, hdata⟩ := hpoll'.of_available hin' (nextAnswer_of_availability havail')
  refine ⟨loadFrom dr kbsrAddr s, loadFrom dr kbsrAddr (loadFrom dr kbsrAddr s), ?_, ?_, hdata, hinput⟩
  · rw [exec_ldr, hea]
  · rw [exec_ldr, hea']

end Sys2Proof.Machine
end

section
/-! PROOFS. 30_encoding.md section 4: the words that do nothing and the words that stop the core (R90, R91). -/

namespace Sys2Proof

/-- The opcode is what is left of a word shifted right by the twelve bits below it. -/
theorem shiftRight_eq_opcode (w : Word) : w >>> 12 = (fieldOpcode w).setWidth 16 := by
  apply BitVec.eq_of_toNat_eq
  have hw : w.toNat < 65536 := w.isLt
  simp only [fieldOpcode, BitVec.toNat_ushiftRight, BitVec.toNat_setWidth, BitVec.extractLsb'_toNat,
    Nat.shiftRight_eq_div_pow]
  omega

/-- A word has an opcode exactly when its shifted value is that opcode's code. -/
theorem decode_opcode_iff (w : Word) (op : Opcode) : (decode w).opcode = op ↔ w >>> 12 = op.code.setWidth 16 := by
  rw [decode_opcode, shiftRight_eq_opcode]
  constructor
  · rintro rfl
    rw [code_opcodeOf]
  · intro h
    have hcode := congrArg (BitVec.setWidth 4) h
    rw [BitVec.setWidth_setWidth_of_le _ (by decide), BitVec.setWidth_setWidth_of_le _ (by decide),
      BitVec.setWidth_eq, BitVec.setWidth_eq] at hcode
    rw [hcode, opcodeOf_code]

theorem toNat_fieldTrapvect8 (w : Word) : (fieldTrapvect8 w).toNat = w.toNat % 256 := by
  rw [fieldTrapvect8, BitVec.extractLsb'_toNat, Nat.shiftRight_zero]

/-- The defined vectors are six neighbours. -/
theorem decodeTrap_eq_undefined_iff (v : BitVec 8) :
    decodeTrap v = .trapUndefined v ↔ v.toNat < 0x20 ∨ 0x25 < v.toNat := by
  revert v; decide

theorem eq_of_decodeTrap_eq_undefined {v u : BitVec 8} (h : decodeTrap v = .trapUndefined u) : u = v := by
  unfold decodeTrap at h
  split_ifs at h
  cases h; rfl

/-! ### The illegal words (R90) -/

theorem opcode_eq_rti_iff (i : Instr) : i.opcode = .rti ↔ i = .rti := by
  cases i <;> simp only [Instr.opcode, reduceCtorEq]

theorem opcode_eq_res_iff (i : Instr) : i.opcode = .res ↔ i = .res := by
  cases i <;> simp only [Instr.opcode, reduceCtorEq]

theorem decode_of_trap {w : Word} (h : (decode w).opcode = .trap) : decode w = decodeTrap (fieldTrapvect8 w) := by
  rw [decode_opcode] at h
  simp only [decode, h]

theorem decode_undefined_iff (w : Word) :
    (∃ v, decode w = .trapUndefined v) ↔
      (decode w).opcode = .trap ∧ (w.toNat % 256 < 0x20 ∨ 0x25 < w.toNat % 256) := by
  rw [← toNat_fieldTrapvect8, ← decodeTrap_eq_undefined_iff]
  constructor
  · rintro ⟨v, hv⟩
    have hop : (decode w).opcode = .trap := by rw [hv]; rfl
    rw [decode_of_trap hop] at hv
    refine ⟨hop, ?_⟩
    rw [hv, eq_of_decodeTrap_eq_undefined hv]
  · rintro ⟨hop, hv⟩
    exact ⟨_, (decode_of_trap hop).trans hv⟩

end Sys2Proof

namespace Sys2Proof.Machine

/-- Settles O55: the core faults on three kinds of instruction, and each is told by the opcode's and the vector's bits
of the word. -/
theorem illegalWordsAreExactlyTheFatalOnes : Obligations.IllegalWordsAreExactlyTheFatalOnes := by
  unfold Obligations.IllegalWordsAreExactlyTheFatalOnes
  intro s t ha hh h
  rw [step_of_fetch ha hh] at h
  rw [exec_faulted_iff ((fetch_status s).trans ha) h, decode_undefined_iff, ← opcode_eq_rti_iff,
    ← opcode_eq_res_iff, decode_opcode_iff, decode_opcode_iff, decode_opcode_iff]
  rfl

/-! ### Untaken branches (R91) -/

theorem fetch_of_ne {s : State} (h : s.pc ≠ kbsrAddr) : fetch s = (s.word s.pc, s.setPc (s.pc + 1#16)) := by
  rw [fetch_eq, memRead_of_ne h]

theorem decode_of_lt {w : Word} (h : w.toNat < 4096) : decode w = .br (fieldNzp w) (fieldPCoffset9 w) := by
  have hop : (decode w).opcode = .br := by
    rw [decode_opcode_iff]
    apply BitVec.eq_of_toNat_eq
    rw [BitVec.toNat_ushiftRight, Nat.shiftRight_eq_div_pow, Nat.div_eq_of_lt h]
    rfl
  rw [decode_opcode] at hop
  simp only [decode, hop]

/-- Settles O43: the fetch increments `pc`, and a branch whose mask has no flag in common writes it back. -/
theorem untakenBranchWordsAreNoOps : Obligations.UntakenBranchWordsAreNoOps := by
  unfold Obligations.UntakenBranchWordsAreNoOps
  refine ⟨by decide, fun s ha hh hpc hlt hmask => ?_⟩
  have hnot : branchTaken (fieldNzp (s.word s.pc)) (s.setPc (s.pc + 1#16)) = false :=
    Bool.eq_false_iff.2 fun htaken => (branchTaken_iff _ _).1 htaken hmask
  rw [step_of_fetch ha hh, fetch_of_ne hpc, decode_of_lt hlt, exec_br, hnot]
  rfl

end Sys2Proof.Machine
end

section
/-! PROOFS. 44_trap_services.md: the services that read a byte (R42, R162, R168), those that write a string (R166,
R170), HALT (R172) and the undefined vectors (R174). -/

namespace Sys2Proof.Machine

/-! ### A blocking read with a byte there (R42) -/

/-- What a service writes to the console for the byte it reads. -/
def echoOf : ReadService → Byte → List Byte
  | .getc, _ => []
  | .inEcho, c => [c]

theorem finishRead_eq (r : ReadService) (c : Byte) (s : State) :
    finishRead r c s = (out (echoOf r c) s).setReg 0 (zext16 c) := by
  cases r with
  | getc => rw [echoOf, out, List.append_nil]; rfl
  | inEcho => rfl

theorem toNat_zext16 (c : Byte) : (zext16 c).toNat = c.toNat :=
  BitVec.toNat_setWidth_of_le (by decide)

/-- A read that finds a byte takes it, echoes it if the service does, and writes R0; nothing else changes. -/
theorem blockingRead_effect (r : ReadService) {s : State} {c : Byte} {rest : List Byte} (hin : s.input = c :: rest)
    (hh : s.hold = none) :
    ((blockingRead r s).reg 0).toNat = c.toNat ∧ (blockingRead r s).input = rest ∧
      (blockingRead r s).output = s.output ++ echoOf r c ∧ SameRegsExcept [0] s (blockingRead r s) ∧
      (blockingRead r s).pc = s.pc ∧ (blockingRead r s).cond = s.cond ∧ SameMemory s (blockingRead r s) ∧
      SameControl s (blockingRead r s) ∧ (blockingRead r s).availability = s.availability ∧
      (blockingRead r s).draws = s.draws := by
  have hregs := sameRegsExcept_blockingRead r s
  rw [blockingRead_cons r hin, finishRead_eq] at hregs ⊢
  refine ⟨?_, rfl, rfl, hregs, rfl, rfl, fun _ => rfl, ⟨rfl, rfl, hh.symm⟩, rfl, rfl⟩
  rw [reg_setReg_same, toNat_zext16]

/-- Settles O45: GETC is a blocking read without echo. -/
theorem getcReadsAByte : Obligations.GetcReadsAByte := by
  unfold Obligations.GetcReadsAByte
  intro s c rest hin hh
  obtain ⟨hreg, hinput, houtput, hframe⟩ := blockingRead_effect .getc hin hh
  exact ⟨_, exec_trapGetc s, hreg, hinput, houtput.trans (List.append_nil _), hframe⟩

/-- Settles O46: IN is the prompt and then a blocking read with echo. -/
theorem inPromptsReadsAndEchoes : Obligations.InPromptsReadsAndEchoes := by
  unfold Obligations.InPromptsReadsAndEchoes
  intro s c rest hin hh
  obtain ⟨hreg, hinput, houtput, hframe⟩ := blockingRead_effect .inEcho (s := out Config.inPrompt s) hin hh
  exact ⟨_, exec_trapIn s, hreg, hinput, houtput.trans (List.append_assoc _ _ _), hframe⟩

/-! ### A blocking read with no byte there (R42, R230) -/

/-- The state in which a service waits. -/
def waiting (r : ReadService) (s : State) : State := { s with hold := some (.read r) }

/-- While no byte comes the service waits, and with the first byte its step ends. -/
theorem waiting_run (r : ReadService) {s : State} (hin : s.input = []) (ha : s.status = .alive) :
    (∀ k, Host.Core.run core k (waiting r s) = .next (waiting r s)) ∧
      ∀ c : Byte, ∃ u, step (deliver c (waiting r s)) = .next u ∧ (u.reg 0).toNat = c.toNat ∧ u.input = [] ∧
        u.hold = none ∧ u.output = s.output ++ echoOf r c ∧ u.pc = s.pc := by
  constructor
  · have hstep : step (waiting r s) = .next (resume (.read r) (waiting r s)) := step_of_hold ha rfl
    rw [resume, blockingRead_nil r (s := waiting r s) hin] at hstep
    exact run_of_step_self hstep
  · intro c
    have hbyte : (deliver c (waiting r s)).input = c :: [] := by rw [deliver_input, waiting, hin]; rfl
    have hstep : step (deliver c (waiting r s)) = .next (resume (.read r) (deliver c (waiting r s))) :=
      step_of_hold ha rfl
    refine ⟨_, hstep, ?_⟩
    rw [resume, blockingRead_cons r hbyte, finishRead_eq]
    refine ⟨?_, rfl, rfl, rfl, rfl⟩
    rw [reg_setReg_same, toNat_zext16]

/-- Settles O47: both services wait in the same way, IN after its prompt. -/
theorem blockedReadWaitsForAByte : Obligations.BlockedReadWaitsForAByte := by
  unfold Obligations.BlockedReadWaitsForAByte
  intro s hin ha
  constructor
  · obtain ⟨hstays, hends⟩ := waiting_run .getc hin ha
    have hexec : exec .trapGetc s = .next (waiting .getc s) := by rw [exec_trapGetc, blockingRead_nil _ hin]; rfl
    refine ⟨_, hexec, hstays, rfl, rfl, fun c => ?_⟩
    obtain ⟨u, hstep, hreg, hinput, hhold, houtput, hpc⟩ := hends c
    exact ⟨u, hstep, hreg, hinput, hhold, houtput.trans (List.append_nil _), hpc⟩
  · obtain ⟨hstays, hends⟩ := waiting_run .inEcho (s := out Config.inPrompt s) hin ha
    have hexec : exec .trapIn s = .next (waiting .inEcho (out Config.inPrompt s)) := by
      rw [exec_trapIn, blockingRead_nil _ (s := out Config.inPrompt s) hin]; rfl
    exact ⟨_, hexec, hstays, rfl, rfl, hends⟩

/-! ### The bytes of a string (R166, R170) -/

theorem wordBytes_puts (w : Word) : wordBytes .puts w = [w.setWidth 8] := by
  rw [wordBytes, lowByte_eq]

/-- The high byte is zero exactly when the word is a byte. -/
theorem highByte_eq_zero_iff (w : Word) : highByte w = 0x00#8 ↔ w.toNat < 256 := by
  rw [← BitVec.toNat_inj, highByte_eq, BitVec.toNat_setWidth, BitVec.toNat_ushiftRight, Nat.shiftRight_eq_div_pow]
  have hw : w.toNat < 65536 := w.isLt
  simp only [BitVec.toNat_ofNat]
  omega

theorem wordBytes_putsp (w : Word) :
    wordBytes .putsp w = if w.toNat < 256 then [w.setWidth 8] else [w.setWidth 8, (w >>> 8).setWidth 8] := by
  rw [wordBytes, ← lowByte_eq, ← highByte_eq]
  exact if_congr (highByte_eq_zero_iff w) rfl rfl

theorem flatMap_wordBytes_puts (ws : List Word) : ws.flatMap (wordBytes .puts) = ws.map (BitVec.setWidth 8) := by
  rw [funext wordBytes_puts, List.map_eq_flatMap]

/-- Settles O49: the string is found inside one step, and PUTS writes one byte for each word. -/
theorem putsWritesUpToTheZeroWord : Obligations.PutsWritesUpToTheZeroWord := by
  unfold Obligations.PutsWritesUpToTheZeroWord
  intro s n hn hz hnz
  refine ⟨_, (exec_trapPuts s).trans (congrArg _ (putString_of_zero .puts s hn hz hnz)), ?_, out_frame _ s⟩
  rw [out_output, flatMap_wordBytes_puts, List.map_map]
  rfl

/-- Settles O50: the string is found inside one step, and PUTSP writes one byte or two for each word. -/
theorem putspWritesPackedPairs : Obligations.PutspWritesPackedPairs := by
  unfold Obligations.PutspWritesPackedPairs
  intro s n hn hz hnz
  refine ⟨_, (exec_trapPutsp s).trans (congrArg _ (putString_of_zero .putsp s hn hz hnz)), ?_, out_frame _ s⟩
  rw [out_output, List.flatMap_map]
  simp only [wordBytes_putsp]

/-! ### An endless string (R166) -/

/-- The state inside an endless service whose next word is at `a`. -/
def writingFrom (kind : StringService) (a : Word) (s : State) : State := { s with hold := some (.string kind a) }

theorem putString_of_endless (kind : StringService) {s : State} (hnz : ∀ b, s.word b ≠ 0x0000#16) :
    putString kind s = writingFrom kind (s.reg 0) s := by
  rw [putString, (stringAt_eq_none_iff (s.reg 0) s).2 hnz]; rfl

theorem out_out (bs bs' : List Byte) (s : State) : out bs' (out bs s) = out (bs ++ bs') s := by
  rw [out, out, out, List.append_assoc]

/-- A further step writes the word at the address and goes on with the next. -/
theorem step_writingFrom (kind : StringService) {a : Word} {s : State} (hnz : s.word a ≠ 0x0000#16)
    (ha : s.status = .alive) :
    step (writingFrom kind a s) = .next (writingFrom kind (a + 1#16) (out (wordBytes kind (s.word a)) s)) := by
  have hheld : step (writingFrom kind a s) = .next (resume (.string kind a) (writingFrom kind a s)) :=
    step_of_hold ha rfl
  rw [hheld, resume_string (s := writingFrom kind a s) hnz]; rfl

/-- The bytes of the first word and then those of the k words after it are the bytes of k + 1 words. -/
theorem flatMap_range_succ (f : Word → List Byte) (a : Word) (k : Nat) :
    ((List.range (k + 1)).flatMap fun i => f (a + BitVec.ofNat 16 i)) =
      f a ++ (List.range k).flatMap fun i => f (a + 1#16 + BitVec.ofNat 16 i) := by
  rw [List.range_succ_eq_map, List.flatMap_cons, List.flatMap_map, BitVec.add_zero]
  simp only [add_one_add_ofNat]

/-- After k further steps k words are written: no zero word ends the service. -/
theorem run_writingFrom (kind : StringService) (k : Nat) (a : Word) {s : State} (hnz : ∀ b, s.word b ≠ 0x0000#16)
    (ha : s.status = .alive) :
    Host.Core.run core k (writingFrom kind a s) = .next (writingFrom kind (a + BitVec.ofNat 16 k)
      (out ((List.range k).flatMap fun i => wordBytes kind (s.word (a + BitVec.ofNat 16 i))) s)) := by
  induction k generalizing a s with
  | zero => rw [BitVec.add_zero, List.range_zero, List.flatMap_nil, out, List.append_nil]; rfl
  | succ k ih =>
    have hrest := ih (a + 1#16) (s := out (wordBytes kind (s.word a)) s) hnz ha
    rw [out_out, add_one_add_ofNat] at hrest
    rw [flatMap_range_succ fun b => wordBytes kind (s.word b)]
    exact (run_succ (step_writingFrom kind (hnz a) ha) k).trans hrest

/-- What PUTS and PUTSP have in common with no zero word in memory. -/
theorem endless_run (kind : StringService) (k : Nat) {s : State} (hnz : ∀ b, s.word b ≠ 0x0000#16)
    (ha : s.status = .alive) :
    ∃ u, Host.Core.run core k (putString kind s) = .next u ∧ u.status = .alive ∧ u.hold ≠ none ∧
      u.pc = s.pc ∧ u.mem = s.mem ∧ u.output = s.output ++ (List.range k).flatMap fun i =>
        wordBytes kind (s.word (s.reg 0 + BitVec.ofNat 16 i)) := by
  rw [putString_of_endless kind hnz]
  exact ⟨_, run_writingFrom kind k (s.reg 0) hnz ha, ha, Option.some_ne_none _, rfl, rfl, rfl⟩

/-- Settles O51: by induction on the number of steps, for the string from any address on. -/
theorem endlessStringNeverEnds : Obligations.EndlessStringNeverEnds := by
  unfold Obligations.EndlessStringNeverEnds
  intro s hnz ha
  refine ⟨⟨_, exec_trapPuts s, fun k => ?puts⟩, ⟨_, exec_trapPutsp s, fun k => ?putsp⟩⟩
  case puts =>
    obtain ⟨u, hrun, hstatus, hhold, hpc, hmem, houtput⟩ := endless_run .puts k hnz ha
    simp only [wordBytes_puts, ← List.map_eq_flatMap] at houtput
    exact ⟨u, hrun, hstatus, hhold, hpc, hmem, houtput⟩
  case putsp =>
    obtain ⟨u, hrun, hstatus, hhold, hpc, hmem, houtput⟩ := endless_run .putsp k hnz ha
    simp only [wordBytes_putsp] at houtput
    exact ⟨u, hrun, hstatus, hhold, hpc, hmem, houtput⟩

/-! ### HALT and the undefined vectors (R172, R174) -/

/-- Settles O52: HALT writes to the console and sets the status; a core that is DEAD steps to itself. -/
theorem haltStopsTheCore : Obligations.HaltStopsTheCore := by
  unfold Obligations.HaltStopsTheCore
  intro s
  obtain ⟨hregs, hpc, hcond, hmem, hinput, -, hfault, hhold⟩ := out_frame Config.haltNotice s
  exact ⟨_, exec_trapHalt s, rfl, rfl, hregs, hpc, hcond, hmem, hinput, hfault, hhold, step_of_stopped (by simp)⟩

/-- Settles O54: an undefined vector is raised as a fatal error; a core that is FAULTED steps to itself. -/
theorem undefinedVectorIsFatal : Obligations.UndefinedVectorIsFatal := by
  unfold Obligations.UndefinedVectorIsFatal
  intro v s
  obtain ⟨hstatus, hfault, hregs, hpc, hcond, hmem, hconsole, hhold⟩ := raise_frame (.undefinedTrapVector v) s
  exact ⟨_, exec_trapUndefined v s, hstatus, hfault, hregs, hpc, hcond, hmem, hconsole, hhold,
    step_of_stopped (by simp)⟩

end Sys2Proof.Machine
end
section
/-! PROOFS. 60_exceptions.md: the host's abort (R196, R210). -/

namespace Sys2Proof.Machine

theorem hostAbort_of_alive {s : State} (h : s.status = .alive) : hostAbort s = .fault .interruptedExecution := by
  unfold hostAbort; rw [h]

theorem hostAbort_of_stopped {s : State} (h : s.status ≠ .alive) : hostAbort s = .next s := by
  unfold hostAbort
  cases hs : s.status with
  | alive => exact absurd hs h
  | dead | faulted => rfl

/-- Settles O56: the abort goes by the status alone. -/
theorem hostAbortEndsOnlyALivingRun : Obligations.HostAbortEndsOnlyALivingRun := by
  unfold Obligations.HostAbortEndsOnlyALivingRun
  refine ⟨fun s => hostAbort_of_alive, fun s t => ⟨fun h => ?next, ?stopped⟩⟩
  case next =>
    by_cases ha : s.status = .alive
    · rw [hostAbort_of_alive ha] at h; cases h
    · rw [hostAbort_of_stopped ha] at h; cases h; exact ⟨ha, rfl⟩
  case stopped =>
    rintro ⟨ha, rfl⟩
    exact hostAbort_of_stopped ha

end Sys2Proof.Machine
end
